-- ==== Sys2Proof/Word.lean ====
section
/-! DEFINITION. The words of the machine (00_scope.md R4, R6) and their plainest arithmetic. -/

namespace Sys2Proof

/-- `BYTE` of R4. -/
abbrev Byte := BitVec 8

/-- A 32-bit value: an instruction word (R36) or a word lane (R10). -/
abbrev Word := BitVec 32

/-- A 64-bit value: the contents of a general register (R9). -/
abbrev Dword := BitVec 64

/-- A 32-bit address, of data (R19) or of an instruction (R12). -/
abbrev Addr := BitVec 32

/-- The number of a general register, as the 5-bit fields `RA` and `RB` give it (R37). -/
abbrev GprName := BitVec 5

/-- The number of a vector register, `v0` .. `v127` (R11, R41). -/
abbrev VrName := BitVec 7

/-- `trunc32` of R6: bits 31:0 of a 64-bit value. -/
def trunc32 (v : Dword) : Word := v.setWidth 32

end Sys2Proof
end

