-- ==== Sys2Proof/Syntax.lean ====
section
/-! DEFINITION. The instructions, one constructor per row of spec/opcode_table.json. -/

namespace Sys2Proof

/-- The two instructions in scope (R2). Operands in the order of the assembler syntax (R48):
source vector register, base, index. Both name registers of one vector file (R11). -/
inductive Instr where
  /-- `stvewx VS, RA0, RB` (R53). -/
  | stvewx (vs : VrName) (ra rb : GprName)
  /-- `stvewx128 VS, RA0, RB` (R54). -/
  | stvewx128 (vs : VrName) (ra rb : GprName)
  deriving DecidableEq, Repr

end Sys2Proof
end

