-- ==== Sys2Proof/WellFormed.lean ====
section
/-! DEFINITION. Which terms of `Instr` are instructions of the machine. -/

namespace Sys2Proof

/-- `stvewx` has a 5-bit register field: "`stvewx` with `VS` > 31 cannot be encoded" (R50).
Every other operand value is allowed (R47). -/
abbrev Instr.WellFormed : Instr → Prop
  | .stvewx vs _ _ => vs.toNat < 32
  | .stvewx128 _ _ _ => True

end Sys2Proof
end

