-- ==== Sys2Proof/Decode.lean ====
section
/-! DEFINITION. The decoder, total on any bytes and rejecting by name (30_encoding.md R47), and
the encoder (R50). Bits of a word are numbered `w[hi:lo]` from the least significant end (R5). -/

namespace Sys2Proof

/-- Why bytes are no instruction in scope. Each is safe: the machine refuses the word (R46). -/
inductive Reject where
  /-- Fewer than the four bytes of an instruction (R36). -/
  | truncated
  /-- The `stvewx` pattern with source bit 31 set (R44). -/
  | recordBit (w : Word)
  /-- The `stvewx128` pattern with `w[1:0]` not `0b11` (R45). -/
  | reservedBits (w : Word)
  /-- Any other word that matches neither row of the opcode table (R46). -/
  | outsideTable (w : Word)
  deriving DecidableEq, Repr

/-- A row of the opcode table: the words `w` with `w & mask = bits`. -/
structure OpcodeRow where
  mask : Word
  bits : Word
  deriving DecidableEq, Repr

/-- The row's own words. -/
def OpcodeRow.matchesWord (r : OpcodeRow) (w : Word) : Bool := w &&& r.mask = r.bits

/-- The row of `stvewx` (R39). -/
def rowStvewx : OpcodeRow := ⟨0xFC0007FF#32, 0x7C00018E#32⟩

/-- The row of `stvewx128` (R40). -/
def rowStvewx128 : OpcodeRow := ⟨0xFC0007F3#32, 0x10000183#32⟩

/-- Field `RT/FRT/VRT` of form `X`, `VD128l` of form `VX128_1`: `w[25:21]` (R37, R38). -/
def fieldVsLow (w : Word) : BitVec 5 := w.extractLsb' 21 5

/-- Field `VD128h` of form `VX128_1`: `w[3:2]` (R38). -/
def fieldVsHigh (w : Word) : BitVec 2 := w.extractLsb' 2 2

/-- Field `RA`: `w[20:16]` (R37, R38). -/
def fieldRA (w : Word) : GprName := w.extractLsb' 16 5

/-- Field `RB`: `w[15:11]` (R37, R38). -/
def fieldRB (w : Word) : GprName := w.extractLsb' 11 5

/-- `VS = VD128h || VD128l` (R41). -/
def joinVs (high : BitVec 2) (low : BitVec 5) : VrName := high ++ low

/-- The instruction that a 32-bit word is (R47). -/
def decodeWord (w : Word) : Except Reject Instr :=
  if rowStvewx.matchesWord w then .ok (.stvewx (joinVs 0 (fieldVsLow w)) (fieldRA w) (fieldRB w))
  else if rowStvewx128.matchesWord w then
    .ok (.stvewx128 (joinVs (fieldVsHigh w) (fieldVsLow w)) (fieldRA w) (fieldRB w))
  else if w &&& 0xFC0007FF#32 = 0x7C00018F#32 then .error (.recordBit w)
  else if w &&& 0xFC0007F0#32 = 0x10000180#32 then .error (.reservedBits w)
  else .error (.outsideTable w)

/-- The word at four bytes of the program, lowest address first: big-endian, the first byte holds
`w[31:24]` (R21, decision D3; log 16). -/
def wordOfBytes (b0 b1 b2 b3 : Byte) : Word := b0 ++ b1 ++ b2 ++ b3

/-- The bytes of an instruction word as they lie in memory, lowest address first (R21). -/
def bytesOfWord (w : Word) : List Byte :=
  [w.extractLsb' 24 8, w.extractLsb' 16 8, w.extractLsb' 8 8, w.extractLsb' 0 8]

/-- The instruction at the head of a list of bytes, and the bytes after it (R36, R47). -/
def decode : List Byte → Except Reject (Instr × List Byte)
  | b0 :: b1 :: b2 :: b3 :: rest =>
    match decodeWord (wordOfBytes b0 b1 b2 b3) with
    | .ok i => .ok (i, rest)
    | .error e => .error e
  | _ => .error .truncated

/-- The word of an instruction (R50): the opcode word with the operand fields put in place. -/
def encode : Instr → Word
  | .stvewx vs ra rb =>
    0x7C00018E#32 ||| (vs.extractLsb' 0 5).setWidth 32 <<< 21 ||| ra.setWidth 32 <<< 16
      ||| rb.setWidth 32 <<< 11
  | .stvewx128 vs ra rb =>
    0x10000183#32 ||| (vs.extractLsb' 0 5).setWidth 32 <<< 21 ||| ra.setWidth 32 <<< 16
      ||| rb.setWidth 32 <<< 11 ||| (vs.extractLsb' 5 2).setWidth 32 <<< 2

/-- The bytes of an instruction in memory, lowest address first. -/
def encodeBytes (i : Instr) : List Byte := bytesOfWord (encode i)

/-- A register number in decimal digits. -/
def numText (n : Nat) : List Char := Nat.toDigits 10 n

/-- A register as the source spells it: `r0` .. `r31`, `v0` .. `v127` (R48). -/
def registerText (letter : Char) (n : Nat) : List Char := letter :: numText n

/-- The base operand: the bare number `0` where the field is 0 (R48, decision D14). -/
def baseText (ra : GprName) : List Char :=
  if ra = 0 then ['0'] else registerText 'r' ra.toNat

/-- Mnemonic, then source vector register, base and index, separated by commas (R48). -/
def lineText (mnemonic : List Char) (vs : VrName) (ra rb : GprName) : List Char :=
  mnemonic ++ ' ' :: registerText 'v' vs.toNat ++ ',' :: ' ' :: baseText ra ++
    ',' :: ' ' :: registerText 'r' rb.toNat

/-- The assembler line of an instruction (R48). It carries no semantics (D14). -/
def assemblyText : Instr → List Char
  | .stvewx vs ra rb => lineText ['s', 't', 'v', 'e', 'w', 'x'] vs ra rb
  | .stvewx128 vs ra rb => lineText ['s', 't', 'v', 'e', 'w', 'x', '1', '2', '8'] vs ra rb

/-- What `decode` reads from an instruction whose bits, numbered as spec/opcode_table.json numbers
them, are `w`; the table's rows have 32 bits, and bits above `nbits` are 0. -/
def decodeTableWord (nbits w : Nat) : Option Instr :=
  match decode (bytesOfWord (BitVec.ofNat 32 (w % 2 ^ nbits))) with
  | .ok (i, _) => some i
  | .error _ => none

end Sys2Proof
end

