-- ==== Sys2Proof/Config.lean ====
section
/-! DEFINITION. What an implementation fixes and what the spec leaves free. A constant with no
body is a free value: nothing can be proved of what it is. -/

namespace Sys2Proof

/-- `ENTRY` of the launch state that `State.reset` names (R17, R77). DESIGN CHOICE: the spec
leaves it open, and every program of 95_test_vectors.md starts here (log 3). -/
def Config.entry : Addr := 0x00010000#32

/-- Free value: the place, among the threads waiting, of the thread that takes the next turn
("Any thread may step at any time", R70); the argument is the count of draws (log 11). -/
opaque Config.nextTurn : Nat → Nat

/-- Free value: whether the storing thread keeps its own reservation on the granule it writes
(R33, U4: "kept or lost"); the argument is the count of draws (log 10). -/
opaque Config.keepOwnReservation : Nat → Bool

/-- Free value: what the byte of memory at an address holds at launch, where nothing has been loaded
there ("unspecified outside the program text", R17; U10: any value; log 8). -/
opaque Config.launchByte : Nat → Byte

/-- Open parameter: `RESERVATION_GRANULE` of the reset state is `4 * 2 ^ granuleExp`
(R4, R33; log 9). -/
opaque Config.granuleExp : Nat

/-- Open parameter: how many floating-point registers the machine has (R13, N9; log 5). -/
opaque Config.fprCount : Nat

end Sys2Proof
end

