-- ==== Sys2Proof/Machine/State.lean ====
section
/-! DEFINITION. The state of the machine (10_state.md), the reasons a step can stop
(60_exceptions.md R62) and the state after reset (R17). -/

namespace Sys2Proof.Machine

/-- The kinds of access that `Admit` decides on (R28). -/
inductive AccessKind where
  | write
  | fetch
  deriving DecidableEq, Repr

/-- Why a hardware thread, and with the last one the machine, stops with a fault. A faulting step
writes nothing (R62). -/
inductive Fault where
  /-- `StorageFault(addr, kind)` (R62): raised by a store at the aligned address `ea` and by the
  fetch at `pc` where `Admit` is false. Safe: the model stops. -/
  | storageFault (addr : Addr) (kind : AccessKind)
  /-- `PcOverflow(pc)` (R62): raised by an instruction whose `pc + 4` passes `0xFFFFFFFF`.
  Safe: the model stops. -/
  | pcOverflow (pc : Addr)
  /-- Raised by the fetch at a `pc` that is no multiple of 4, which R24 rules out by a launch
  premise. The model's own stop (log 14). Safe. -/
  | pcMisaligned (pc : Addr)
  deriving DecidableEq, Repr

/-- Why a hardware thread, and with the last one the machine, is refused. -/
inductive Refusal where
  /-- Raised by an arm of `exec` for an instruction that has no meaning yet: none now. Safe. -/
  | notModelled (mnemonic : String)
  /-- `Refused(pc, w)` (R46, R62): raised by the fetch of a word that is neither instruction in
  scope. Safe: the model gives the word no meaning. -/
  | refusedWord (pc : Addr) (w : Word)
  deriving DecidableEq, Repr

/-- What stopped a thread: the fault / refusal mark of R17. -/
inductive Stop where
  | faulted (f : Fault)
  | refused (r : Refusal)
  deriving DecidableEq, Repr

/-- The 16 bytes of a vector register, `byte[0]` .. `byte[15]` (R10). -/
abbrev VReg := Vector Byte 16

/-- XER (R13): the source names its flags `CA`, `OV`, `SO` and gives it no width, so what else it
holds is a number of no stated width (log 5). -/
structure Xer where
  ca : Bool
  ov : Bool
  so : Bool
  rest : Nat
  deriving DecidableEq, Repr

/-- A hardware thread: what R70 gives each thread, its identity as an agent (R15) and its
fault / refusal mark (R17). -/
structure Thread where
  /-- The thread's number among the agents that hold reservations. -/
  id : Nat
  /-- `r0` .. `r31` (R9). -/
  gpr : Vector Dword 32
  /-- `v0` .. `v127` (R10). -/
  vr : Vector VReg 128
  /-- The program counter (R12). -/
  pc : Addr
  /-- The condition register, a number of no stated width (R13; log 5). -/
  cr : Nat
  /-- XER (R13). -/
  xer : Xer
  /-- The floating-point registers, numbers of no stated width (R13; log 5). -/
  fpr : List Nat
  /-- The fault or refusal that stopped the thread, if any (R17, R62). -/
  mark : Option Stop
  deriving DecidableEq, Repr

/-- A load reservation: an agent and the address of a granule (R15). -/
structure Reservation where
  agent : Nat
  granule : Nat
  deriving DecidableEq, Repr

/-- One store as R26 has it recorded: one write event of four bytes, with the bytes it
overwrote, lowest address first; none for a byte that still held what the launch left there
(log 8). -/
structure StoreEvent where
  agent : Nat
  addr : Addr
  before : Vector (Option Byte) 4
  word : Word
  deriving DecidableEq, Repr

/-- What a region of the platform's map is (R27, R28, R69). -/
inductive RegionKind where
  | memory
  | device
  deriving DecidableEq, Repr

/-- A region of the platform's map: the bytes `base` .. `base + size - 1` (R28; log 2). -/
structure Region where
  base : Nat
  size : Nat
  kind : RegionKind
  writable : Bool
  fetchable : Bool
  deriving DecidableEq, Repr

/-- A run of addresses, `base` .. `base + size - 1`. -/
structure Extent where
  base : Nat
  size : Nat
  deriving DecidableEq, Repr

/-- The parameters of the step relation (R4, R18), which no step writes (log 1). -/
structure Platform where
  /-- `Admit`, as a map of regions (R28). -/
  map : List Region
  /-- `TEXT`, the program text (R34). -/
  text : List Extent
  /-- `RESERVATION_GRANULE` is `4 * 2 ^ granuleExp`, a power of two not below 4 (R33). -/
  granuleExp : Nat
  /-- `WORD_STORE_ATOMIC` (R26). -/
  wordStoreAtomic : Bool
  /-- `ENTRY` (R17, R77). -/
  entry : Addr
  /-- `END` (R77). -/
  endAddr : Addr
  deriving DecidableEq, Repr

/-- Memory: the bytes that were loaded or stored, by rising address. An unlisted byte holds what the
launch left there, a free value (R16, R17; log 8). -/
abbrev Memory := List Host.Cell

/-- The machine: the threads, what they share (R70), the parameters (R18) and the model's own
count of free values drawn (log 10). -/
structure State where
  /-- The thread whose turn it is. -/
  cur : Thread
  /-- The other hardware threads (R70). -/
  others : List Thread
  /-- `Mem` (R16). -/
  mem : Memory
  /-- The reservation table (R15), in order and without repeats. -/
  reservations : List Reservation
  /-- The write events so far, newest first (R26). -/
  stores : List StoreEvent
  /-- The parameters of the step relation (R18). -/
  platform : Platform
  /-- The model's own: how many free values the run has drawn. -/
  draws : Nat
  deriving DecidableEq, Repr

/-- A thread at launch: `pc` is `ENTRY` and the mark is clear, as R17 says; for the registers R17
leaves unspecified, zero. DESIGN CHOICE (log 4, log 6). -/
def Thread.reset (id : Nat) : Thread where
  id := id
  gpr := Vector.replicate 32 0
  vr := Vector.replicate 128 (Vector.replicate 16 0)
  pc := Config.entry
  cr := 0
  xer := ⟨false, false, false, 0⟩
  fpr := List.replicate Config.fprCount 0
  mark := none

/-- The platform of the reset state: a flat space of memory, all of it admitted, with no program
loaded (`TEXT` empty, `END = ENTRY`). DESIGN CHOICE (log 3); `WORD_STORE_ATOMIC` has its default
(R4) and the granule stays open (log 9). -/
def Platform.reset : Platform where
  map := [⟨0, 0x100000000, .memory, true, true⟩]
  text := []
  granuleExp := Config.granuleExp
  wordStoreAtomic := false
  entry := Config.entry
  endAddr := Config.entry

/-- The launch state of R17 and R73, with a value named for what they leave unspecified
(log 3 to log 8, log 11). -/
def State.reset : State where
  cur := Thread.reset 0
  others := []
  mem := []
  reservations := []
  stores := []
  platform := Platform.reset
  draws := 0

end Sys2Proof.Machine
end

