-- ==== Sys2Proof/Machine/Flags.lean ====
section
/-! DEFINITION. The flag computations of the spec: there is none. Both instructions leave the
condition register and XER as they are (10_state.md R13, 40_vector_element_store.md R55). -/

namespace Sys2Proof.Machine

/-- The status after a store of a vector element: "_No condition-register or status-register
effects._" (R13, R55). -/
def statusAfterStore (t : Thread) : Thread := t

end Sys2Proof.Machine
end

