-- ==== Sys2Proof/Machine/Operands.lean ====
section
/-! DEFINITION. The operand forms (30_encoding.md R42) and the addressing mode and lane of
40_vector_element_store.md (R51, R52). -/

namespace Sys2Proof.Machine

/-- `x[i]`: the general register `i`; no register is hard-wired (R9). -/
def readGpr (t : Thread) (r : GprName) : Dword := t.gpr[r.toNat]'r.isLt

/-- `v[i]`: the vector register `i` (R10). -/
def readVr (t : Thread) (v : VrName) : VReg := t.vr[v.toNat]'v.isLt

/-- Operand form `RA0`: the constant 0 where the field is 0, else `x[RA]` (R42). -/
def readRA0 (t : Thread) (ra : GprName) : Dword := if ra = 0 then 0 else readGpr t ra

/-- `EA`, unaligned: `trunc32(RA0 +64 x[RB])` (R51). -/
def effectiveAddress (t : Thread) (ra rb : GprName) : Addr :=
  trunc32 (readRA0 t ra + readGpr t rb)

/-- `ea = EA & 0xFFFFFFFC` (R51). -/
def alignWord (ea : Addr) : Addr := ea &&& 0xFFFFFFFC#32

/-- `slot = (EA & 0xF) >> 2 = EA[3:2]` (R52). -/
def laneSlot (ea : Addr) : BitVec 2 := ea.extractLsb' 2 2

/-- Byte `4 * slot + k` of a vector register: byte `k` of its word lane `slot` (R10). -/
def laneByte (v : VReg) (slot : BitVec 2) (k : Fin 4) : Byte :=
  v[4 * slot.toNat + k.val]'(by have := slot.isLt; have := k.isLt; omega)

/-- `v.word[slot]`: the four bytes of a lane, the first the most significant (R10). -/
def laneWord (v : VReg) (slot : BitVec 2) : Word :=
  laneByte v slot 0 ++ laneByte v slot 1 ++ laneByte v slot 2 ++ laneByte v slot 3

end Sys2Proof.Machine
end

