-- ==== Sys2Proof/Machine/Ops.lean ====
section
/-! DEFINITION. The named operations over memory, the platform's map, the reservation table and
the program counter (20_memory.md, 00_scope.md R7). The spec describes no trap entry and no
return from one (60_exceptions.md R65, R66), so there is none here. -/

namespace Sys2Proof.Machine

/-! ### Memory -/

/-- The byte that was loaded or last stored at an address; none where nothing was (log 8). -/
def Memory.read : Memory → Nat → Option Byte
  | [], _ => none
  | c :: m, a => if c.1 = a then some c.2 else Memory.read m a

/-- `Mem[a]` (R16): the byte loaded or last stored there, else the one the launch left, which is a
free value (R17, U10; log 8). -/
def Memory.byte (m : Memory) (a : Nat) : Byte := (Memory.read m a).getD (Config.launchByte a)

/-- One byte stored, in the one canonical form: rising addresses, one entry each. -/
def Memory.write : Memory → Nat → Byte → Memory
  | [], a, b => [(a, b)]
  | c :: m, a, b =>
    if a < c.1 then (a, b) :: c :: m
    else if a = c.1 then (a, b) :: m
    else c :: Memory.write m a b

/-- The canonical form: addresses strictly rise and lie in the 32-bit space (R16, R19). -/
abbrev Memory.wf (m : Memory) : Prop :=
  m.Pairwise (fun c d => c.1 < d.1) ∧ ∀ c ∈ m, c.1 < 2 ^ 32

/-- `MemWrite(addr, 4, w)`: big-endian, `w[31:24]` at `addr` (R22). -/
def Memory.writeWord (m : Memory) (a : Addr) (w : Word) : Memory :=
  Memory.write (Memory.write (Memory.write (Memory.write m
    a.toNat (w.extractLsb' 24 8))
    (a + 1).toNat (w.extractLsb' 16 8))
    (a + 2).toNat (w.extractLsb' 8 8))
    (a + 3).toNat (w.extractLsb' 0 8)

/-- What was loaded or last stored at `a` .. `a + 3`, lowest address first. -/
def Memory.wordBytes (m : Memory) (a : Addr) : Vector (Option Byte) 4 :=
  #v[Memory.read m a.toNat, Memory.read m (a + 1).toNat, Memory.read m (a + 2).toNat,
    Memory.read m (a + 3).toNat]

/-- Four bytes at `a` .. `a + 3` of which some are what the launch left there (log 8). -/
def launchFill (a : Addr) (v : Vector (Option Byte) 4) : Vector Byte 4 :=
  #v[v[0].getD (Config.launchByte a.toNat), v[1].getD (Config.launchByte (a + 1).toNat),
    v[2].getD (Config.launchByte (a + 2).toNat), v[3].getD (Config.launchByte (a + 3).toNat)]

/-! ### The platform's map (R27, R28, R34, R69) -/

/-- The region has this byte. -/
def Region.has (r : Region) (a : Nat) : Bool := decide (r.base ≤ a ∧ a < r.base + r.size)

/-- The region permits this kind of access. -/
def Region.permits (r : Region) : AccessKind → Bool
  | .write => r.writable
  | .fetch => r.fetchable

/-- The extent has this byte. -/
def Extent.has (e : Extent) (a : Nat) : Bool := decide (e.base ≤ a ∧ a < e.base + e.size)

/-- The byte lies in the program text `TEXT` (R34). -/
def Platform.inText (p : Platform) (a : Nat) : Bool := p.text.any fun e => e.has a

/-- The byte belongs to a device (R27, R69). -/
def Platform.inDevice (p : Platform) (a : Nat) : Bool :=
  p.map.any fun r => r.has a && decide (r.kind = .device)

/-- `Admit` for one byte: the address exists (R16) and some region permits the access; a byte of
`TEXT` (R34) or of a device (R27, R69) is not admitted for a store. -/
def Platform.admitsByte (p : Platform) (a : Nat) (kind : AccessKind) : Bool :=
  decide (a < 2 ^ 32) && (p.map.any fun r => r.has a && r.permits kind) &&
    (decide (kind ≠ .write) || (!p.inText a && !p.inDevice a))

/-- `Admit(addr, n, kind)`: the `n` bytes at `addr` may be accessed that way (R28). -/
def Platform.admits (p : Platform) (a n : Nat) (kind : AccessKind) : Bool :=
  (List.range n).all fun i => p.admitsByte (a + i) kind

/-! ### Reservations (R15, R33) -/

/-- `RESERVATION_GRANULE`, a power of two not below 4 (R4, R33). -/
def Platform.granule (p : Platform) : Nat := 4 * 2 ^ p.granuleExp

/-- The reservation's granule contains this byte. -/
def Reservation.covers (g : Nat) (r : Reservation) (a : Nat) : Bool :=
  decide (r.granule ≤ a ∧ a < r.granule + g)

/-- The reservation's granule contains one of the `n` bytes at `a`. -/
def Reservation.hit (g : Nat) (r : Reservation) (a n : Nat) : Bool :=
  (List.range n).any fun i => r.covers g (a + i)

/-- Whether a reservation outlives a store: one that the store does not hit stays; of those it
hits, another agent's goes and the storing agent's own is kept or lost as `keepOwn` says (R33). -/
def Reservation.survives (g self : Nat) (keepOwn : Bool) (a n : Nat) (r : Reservation) : Bool :=
  !r.hit g a n || (decide (r.agent = self) && keepOwn)

/-- The table's canonical form: a set of pairs, in order, each granule address a multiple of the
granule in the 32-bit space (R15). -/
abbrev reservationsWf (g : Nat) (rs : List Reservation) : Prop :=
  rs.Pairwise (fun r q => r.agent < q.agent ∨ r.agent = q.agent ∧ r.granule < q.granule) ∧
    ∀ r ∈ rs, r.granule % g = 0 ∧ r.granule < 2 ^ 32

/-! ### Updates of the state -/

/-- `pc <- target` (R7). -/
def Thread.setPc (t : Thread) (pc : Addr) : Thread := { t with pc := pc }

/-- The fault / refusal mark set (R17). -/
def Thread.setMark (t : Thread) (m : Option Stop) : Thread := { t with mark := m }

/-- The thread whose turn it is, changed. -/
def State.setCur (s : State) (t : Thread) : State := { s with cur := t }

/-- Memory, changed. -/
def State.setMem (s : State) (m : Memory) : State := { s with mem := m }

/-- The parameters, changed: by a load from outside only. -/
def State.setPlatform (s : State) (p : Platform) : State := { s with platform := p }

/-- `KillReservations(addr, n)` (R33); the storing thread's own reservation is a free value, which
advances the count of draws (log 10). -/
def State.killReservations (s : State) (a : Addr) (n : Nat) : State :=
  { s with
    reservations := s.reservations.filter fun r =>
      r.survives s.platform.granule s.cur.id (Config.keepOwnReservation s.draws) a.toNat n
    draws := s.draws + 1 }

/-- `MemWrite(addr, 4, w)` by the thread whose turn it is: the bytes (R22) and the write event
(R26). -/
def State.storeWord (s : State) (a : Addr) (w : Word) : State :=
  { s with
    mem := Memory.writeWord s.mem a w
    stores := ⟨s.cur.id, a, Memory.wordBytes s.mem a, w⟩ :: s.stores }

/-- `pc + 4` would pass `0xFFFFFFFF` (R12, R59): for an aligned `pc`, `pc = 0xFFFFFFFC`. -/
def pcAtTop (pc : Addr) : Bool := decide (2 ^ 32 ≤ pc.toNat + 4)

/-- The end of an instruction: `pc <- pc + 4`, no status effect (R12, R55, R59). -/
def Thread.complete (t : Thread) : Thread := (statusAfterStore t).setPc (t.pc + 4)

/-! ### The store of one vector word element (R51 to R54) -/

/-- The word that the store moves: lane `EA[3:2]` of `VS` (R52). -/
def elementWord (t : Thread) (vs : VrName) (ra rb : GprName) : Word :=
  laneWord (readVr t vs) (laneSlot (effectiveAddress t ra rb))

/-- The aligned address `ea` that the store writes (R51). -/
def elementAddress (t : Thread) (ra rb : GprName) : Addr := alignWord (effectiveAddress t ra rb)

/-- The shared pseudocode of R53 and R54, its checks in the order of R64. -/
def storeElement (vs : VrName) (ra rb : GprName) (s : State) : Host.Outcome State Fault Refusal :=
  let ea := elementAddress s.cur ra rb
  let w := elementWord s.cur vs ra rb
  if pcAtTop s.cur.pc then .fault (.pcOverflow s.cur.pc)
  else if s.platform.admits ea.toNat 4 .write then
    .next (((s.killReservations ea 4).storeWord ea w).setCur s.cur.complete)
  else .fault (.storageFault ea .write)

/-! ### Instruction fetch (R47) -/

/-- `MemRead(a, 4)` of the program (R21, R22), which every address of memory answers (R16). -/
def Memory.readWord (m : Memory) (a : Addr) : Word :=
  wordOfBytes (Memory.byte m a.toNat) (Memory.byte m (a + 1).toNat) (Memory.byte m (a + 2).toNat)
    (Memory.byte m (a + 3).toNat)

/-- The instruction word at `pc`, or why there is none: `pc` must be aligned (R24; log 14) and the
fetch admitted (R47, R64). A word outside the program holds what the launch left there, whatever that
is (R17; log 8). The bytes are those that memory holds now:
a store by any thread to a word outside `TEXT` is seen by the next fetch of it. DESIGN CHOICE: no
source says when a fetch sees a store (R34, U9; log 28). -/
def fetchWord (s : State) : Except Fault Word :=
  if s.cur.pc.toNat % 4 ≠ 0 then .error (.pcMisaligned s.cur.pc)
  else if s.platform.admits s.cur.pc.toNat 4 .fetch then .ok (Memory.readWord s.mem s.cur.pc)
  else .error (.storageFault s.cur.pc .fetch)

/-! ### A program loaded from outside (R74; log 22) -/

/-- The platform once a word of a program is loaded at `pc`: the word is admitted for fetch and
lies in `TEXT`, and `END`, where it was `pc`, becomes `pc + 4`. DESIGN CHOICE: at the last word of
the space no `END` past it exists (R77 has `END <= 0xFFFFFFFC`), and `pc + 4` wraps to 0, below
`ENTRY`, so that the word is still the next to run (log 22). -/
def Platform.loadText (p : Platform) (pc : Addr) : Platform :=
  { p with
    map := if p.admits pc.toNat 4 .fetch then p.map
      else ⟨pc.toNat, 4, .memory, false, true⟩ :: p.map
    text := ⟨pc.toNat, 4⟩ :: p.text
    endAddr := if p.endAddr = pc then pc + 4 else p.endAddr }

/-- The state once an instruction word is loaded where the thread whose turn it is fetches next. -/
def State.loadWord (s : State) (w : Word) : State :=
  ((s.setMem (Memory.writeWord s.mem s.cur.pc w)).setPlatform
    (s.platform.loadText s.cur.pc)).setCur (s.cur.setMark none)

end Sys2Proof.Machine
end

