-- ==== Sys2Proof/Machine/VectorStore.lean ====
section
/-! DEFINITION. The vector element word stores (40_vector_element_store.md), the one family of the
opcode table. -/

namespace Sys2Proof.Machine

/-- `stvewx VS, RA0, RB` (R53). -/
def execStvewx (vs : VrName) (ra rb : GprName) (s : State) : Host.Outcome State Fault Refusal :=
  storeElement vs ra rb s

/-- `stvewx128 VS, RA0, RB`: the same pseudocode with the 7-bit `VS` (R54, decision D18; log 21). -/
def execStvewx128 (vs : VrName) (ra rb : GprName) (s : State) :
    Host.Outcome State Fault Refusal :=
  storeElement vs ra rb s

end Sys2Proof.Machine
end

