-- ==== Sys2Proof/Machine/Dispatch.lean ====
section
/-! DEFINITION. What each instruction does: one arm per constructor of `Instr`. -/

namespace Sys2Proof.Machine

def exec (i : Instr) (s : State) : Host.Outcome State Fault Refusal :=
  match i with
  | .stvewx vs ra rb => Sys2Proof.Machine.execStvewx vs ra rb s
  | .stvewx128 vs ra rb => Sys2Proof.Machine.execStvewx128 vs ra rb s

end Sys2Proof.Machine
end

