-- ==== Sys2Proof/Machine/ThreadStep.lean ====
section
/-! DEFINITION. One step of a hardware thread (00_scope.md R8, 30_encoding.md R47). -/

namespace Sys2Proof.Machine

/-- Fetch, decode and execute for the thread whose turn it is (R47), in the order of R64. -/
def threadStep (s : State) : Host.Outcome State Fault Refusal :=
  match fetchWord s with
  | .error f => .fault f
  | .ok w =>
    match decodeWord w with
    | .error _ => .refused (.refusedWord s.cur.pc w)
    | .ok i => exec i s

end Sys2Proof.Machine
end

