-- ==== Sys2Proof/Machine/Threads.lean ====
section
/-! DEFINITION. The hardware threads and whose turn it is (60_exceptions.md R70), and when a thread
takes no further step (R62, 70_reset_and_hazards.md R77). -/

namespace Sys2Proof.Machine

/-- All the hardware threads, the one whose turn it is first. -/
def State.threads (s : State) : List Thread := s.cur :: s.others

/-- A thread has finished when its `pc` equals `END` (R77). -/
def State.finished (s : State) (t : Thread) : Bool := decide (t.pc = s.platform.endAddr)

/-- A thread takes no further step: it has finished (R77), faulted or been refused (R62). -/
def State.halted (s : State) (t : Thread) : Bool := s.finished t || t.mark.isSome

/-- Some other thread can still step. -/
def State.othersLive (s : State) : Bool := s.others.any fun t => !s.halted t

/-- The thread in the given place of those waiting takes the turn; past the end, the last does. -/
def pickThread : Thread → List Thread → Nat → Thread × List Thread
  | t, [], _ => (t, [])
  | t, u :: us, 0 => (t, u :: us)
  | t, u :: us, n + 1 => ((pickThread u us n).1, t :: (pickThread u us n).2)

/-- The turn goes to any thread ("Any thread may step at any time", R70; log 11). -/
def State.passTurn (s : State) : State :=
  match s.others with
  | [] => s
  | u :: us =>
    { s with
      cur := (pickThread s.cur (u :: us) (Config.nextTurn s.draws)).1
      others := (pickThread s.cur (u :: us) (Config.nextTurn s.draws)).2
      draws := s.draws + 1 }

/-- What a machine does with what stopped a thread: while another thread can step, the thread is
marked (R17) and the machine goes on, for a faulted or refused thread alone takes no further step
(R62, R77; log 12). -/
def State.stopThread (s : State) (stop : Stop) : State :=
  (s.setCur (s.cur.setMark (some stop))).passTurn

/-- What the machine makes of the outcome of its thread's step (R8, R70, R77; log 12). -/
def afterTurn (s : State) :
    Host.Outcome State Fault Refusal → Host.Outcome State Fault Refusal
  | .next s' => .next s'.passTurn
  | .fault f => if s.othersLive then .next (s.stopThread (.faulted f)) else .fault f
  | .refused r => if s.othersLive then .next (s.stopThread (.refused r)) else .refused r

end Sys2Proof.Machine
end

