-- ==== Sys2Proof/Machine/Step.lean ====
section
/-! DEFINITION. One step of the machine, and the load of one instruction word from outside. -/

namespace Sys2Proof.Machine

/-- The thread whose turn it is takes a step, unless it takes none any more (R62, R77), and the turn
passes on (R70). -/
def step (s : State) : Host.Outcome State Fault Refusal :=
  if s.halted s.cur then .next s.passTurn else afterTurn s (threadStep s)

/-- `s` with the instruction whose bits are `w` loaded where `step` fetches next (log 22). -/
def State.withFetchWord (s : State) (nbits w : Nat) : State :=
  s.loadWord (BitVec.ofNat 32 (w % 2 ^ nbits))

end Sys2Proof.Machine
end

