-- ==== Sys2Proof/Machine/Visibility.lean ====
section
/-! DEFINITION. What an agent may see of the stores (20_memory.md R26, R30, R31). No instruction in
scope reads data memory, so this is a view of the state and no part of a step (log 18). -/

namespace Sys2Proof.Machine

/-- The bytes that stores overwrote in the word at `a`, newest first, back to the agent's own last
store there: the thread that stored sees the stored value "or a later one" (R30). -/
def overwrittenSince (agent : Nat) (a : Addr) : List StoreEvent → List (Vector Byte 4)
  | [] => []
  | e :: es =>
    if e.addr = a then
      if e.agent = agent then [] else launchFill a e.before :: overwrittenSince agent a es
    else overwrittenSince agent a es

/-- The values of the word at `a` that may still be seen by an agent: the latest, and each earlier
one, for nothing says when a store becomes visible to another agent (R31). -/
def State.visibleWords (s : State) (agent : Nat) (a : Addr) : List (Vector Byte 4) :=
  launchFill a (Memory.wordBytes s.mem a) :: overwrittenSince agent a s.stores

/-- What an agent may see of the aligned word at `a`: one of the visible values as a whole where
word stores are atomic, else each byte from any of them (R26). -/
def State.maySeeWord (s : State) (agent : Nat) (a : Addr) (seen : Vector Byte 4) : Bool :=
  if s.platform.wordStoreAtomic then decide (seen ∈ s.visibleWords agent a)
  else (List.finRange 4).all fun i => (s.visibleWords agent a).any fun v => decide (v[i] = seen[i])

/-- Whether an agent that has seen the `i`-th store of the run may then see the `j`-th, counted from
the first: stores to one address by one thread are seen in program order, and no other order is
promised (R31). -/
def State.mayThenSee (s : State) (i j : Nat) : Bool :=
  match s.stores.reverse[i]?, s.stores.reverse[j]? with
  | some e, some f => !decide (e.addr = f.addr ∧ e.agent = f.agent) || decide (i ≤ j)
  | _, _ => false

/-- Whether an agent holds a load reservation on the byte at `a`. Where it holds none, a
store-conditional by it there "must fail" (R33); the instruction itself is out of scope (R2). -/
def State.holdsReservation (s : State) (agent a : Nat) : Bool :=
  s.reservations.any fun r => decide (r.agent = agent) && r.covers s.platform.granule a

end Sys2Proof.Machine
end

