-- ==== Sys2Proof/Safety.lean ====
section
/-! DEFINITION. What counts as a good state, a launch and the end of a run
(70_reset_and_hazards.md R74, R77). -/

namespace Sys2Proof.Machine

/-- The state is in form: memory and the reservation table canonical, every `pc` a multiple of 4
(R12), no two threads the same agent (R70), every write event at a multiple of 4 (R23). -/
abbrev State.Inv (s : State) : Prop :=
  Memory.wf s.mem ∧ reservationsWf s.platform.granule s.reservations ∧
    (∀ t ∈ s.threads, t.pc.toNat % 4 = 0) ∧ (s.threads.map Thread.id).Nodup ∧
    ∀ e ∈ s.stores, e.addr.toNat % 4 = 0

/-- The source vector register of an instruction. -/
def instrVs : Instr → VrName
  | .stvewx vs _ _ => vs
  | .stvewx128 vs _ _ => vs

/-- The `RA` field of an instruction. -/
def instrRA : Instr → GprName
  | .stvewx _ ra _ => ra
  | .stvewx128 _ ra _ => ra

/-- The `RB` field of an instruction. -/
def instrRB : Instr → GprName
  | .stvewx _ _ rb => rb
  | .stvewx128 _ _ rb => rb

/-- `EA` of an instruction, as its meaning computes it (R51). -/
def instrEA (i : Instr) (t : Thread) : Addr := effectiveAddress t (instrRA i) (instrRB i)

/-- `ea` of an instruction, the address its meaning stores to (R51). -/
def instrAddress (i : Instr) (t : Thread) : Addr := elementAddress t (instrRA i) (instrRB i)

/-- The word an instruction stores, as its meaning computes it (R52). -/
def instrWord (i : Instr) (t : Thread) : Word := elementWord t (instrVs i) (instrRA i) (instrRB i)

/-- Instructions executed one after the other by the thread whose turn it is. -/
def execAll : List Instr → State → Host.Outcome State Fault Refusal
  | [], s => .next s
  | i :: is, s =>
    match exec i s with
    | .next t => execAll is t
    | .fault f => .fault f
    | .refused r => .refused r

/-- The outcome of a step that stops for this reason (R8, R62). -/
def stopOutcome : Stop → Host.Outcome State Fault Refusal
  | .faulted f => .fault f
  | .refused r => .refused r

/-- An outcome with its next state changed. -/
def onNext (f : State → State) :
    Host.Outcome State Fault Refusal → Host.Outcome State Fault Refusal
  | .next t => .next (f t)
  | .fault x => .fault x
  | .refused r => .refused r

/-- From `a` up to `b` there is program text: every word admitted for fetch, in `TEXT`, and one of
the two instructions in scope (R74, premises 1 and 2). -/
def State.holdsProgram (s : State) (a b : Addr) : Prop :=
  ∀ p : Addr, a.toNat ≤ p.toNat → p.toNat < b.toNat → p.toNat % 4 = 0 →
    s.platform.admits p.toNat 4 .fetch = true ∧
      (∀ k < 4, s.platform.inText (p.toNat + k) = true) ∧
      ∃ i, decodeWord (Memory.readWord s.mem p) = .ok i

/-- A launch as R74 and R77 ask for it. The premises that no state can show (the facility enabled,
no interrupt) are in log 19. -/
def State.LaunchPremises (s : State) : Prop :=
  s.platform.entry.toNat % 4 = 0 ∧ s.platform.endAddr.toNat % 4 = 0 ∧
    s.platform.entry.toNat ≤ s.platform.endAddr.toNat ∧
    (∀ t ∈ s.threads, t.pc = s.platform.entry ∧ t.mark = none) ∧
    s.holdsProgram s.platform.entry s.platform.endAddr

/-- A run under way: every thread is at a word of the program or at its end. -/
def State.OnProgram (s : State) : Prop :=
  s.platform.endAddr.toNat % 4 = 0 ∧
    ∀ t ∈ s.threads, t.pc.toNat % 4 = 0 ∧ t.pc.toNat ≤ s.platform.endAddr.toNat ∧
      s.holdsProgram t.pc s.platform.endAddr

/-- The run is over: every thread has finished, faulted or been refused (R77). -/
def State.runOver (s : State) : Bool := s.threads.all fun t => s.halted t

/-- A good end: every thread has finished (R77). -/
def State.goodEnd (s : State) : Bool :=
  s.threads.all fun t => s.finished t && t.mark.isNone

end Sys2Proof.Machine
end

