-- ==== Sys2Proof/Certificates/Slice0/Obligations.lean ====
section
/-! DEFINITION. The statements for the provers, from the spec's numbered rules. `∀ i : Instr` ranges
over both instructions, `stvewx` and `stvewx128`, with every operand. -/

open Sys2Proof Sys2Proof.Machine

/-! ### Encoding and decoding -/

/-- Every well-formed instruction, at the head of any bytes, decodes to itself (R47, R50). -/
def Obligations.DecodeOfEncodeIsTheInstruction : Prop :=
  ∀ (i : Instr) (rest : List Byte), i.WellFormed →
    decode (encodeBytes i ++ rest) = .ok (i, rest)

/-- A word has one meaning at most, and only its encoding gives it (R47, R50). -/
def Obligations.EncodeOfDecodeIsTheWord : Prop :=
  ∀ (w : Word) (i : Instr), decodeWord w = .ok i → i.WellFormed ∧ encode i = w

/-- Bytes written out from the encodings of R37 and R38 (vectors E1, E2, E5, E9, E12). -/
def Obligations.SampleWordsDecode : Prop :=
  decode [0x7C, 0x00, 0x01, 0x8E] = .ok (.stvewx 0 0 0, []) ∧
  decode [0x7C, 0x23, 0x21, 0x8E] = .ok (.stvewx 1 3 4, []) ∧
  decode [0x7F, 0xFF, 0xF9, 0x8E] = .ok (.stvewx 31 31 31, []) ∧
  decode [0x10, 0x00, 0x49, 0x8B] = .ok (.stvewx128 64 0 9, []) ∧
  decode [0x13, 0xFF, 0xF9, 0x8F] = .ok (.stvewx128 127 31 31, [])

/-- The words of R44 and R45 are rejected by name, whatever their operand fields. The strict reading
is the spec's decision D12 (log 17). -/
def Obligations.ReservedPatternsAreRejectedByName : Prop :=
  ∀ w : Word,
    (w.extractLsb' 26 6 = 31 → w.extractLsb' 1 10 = 199 → w.extractLsb' 0 1 = 1 →
      decodeWord w = .error (.recordBit w)) ∧
    (w.extractLsb' 26 6 = 4 → w.extractLsb' 4 7 = 24 → w.extractLsb' 0 2 ≠ 3 →
      decodeWord w = .error (.reservedBits w))

/-- Which words are which instruction, by the fields that R39 and R40 name (decision D12, log 17). -/
def Obligations.DecodeSelectsByOpcodeFields : Prop :=
  ∀ w : Word,
    ((∃ vs ra rb, decodeWord w = .ok (.stvewx vs ra rb)) ↔
      w.extractLsb' 26 6 = 31 ∧ w.extractLsb' 1 10 = 199 ∧ w.extractLsb' 0 1 = 0) ∧
    ((∃ vs ra rb, decodeWord w = .ok (.stvewx128 vs ra rb)) ↔
      w.extractLsb' 26 6 = 4 ∧ w.extractLsb' 4 7 = 24 ∧ w.extractLsb' 0 2 = 3)

/-- R41: the 7-bit number of `stvewx128` from its two fields, the 5-bit number of `stvewx`, and that
each number of the two ranges is reached. -/
def Obligations.VectorRegisterNumberFromItsFields : Prop :=
  (∀ (w : Word) (vs : VrName) (ra rb : GprName),
    (decodeWord w = .ok (.stvewx128 vs ra rb) →
      vs = w.extractLsb' 2 2 ++ w.extractLsb' 21 5 ∧
      vs.toNat = 32 * (w.extractLsb' 2 2).toNat + (w.extractLsb' 21 5).toNat) ∧
    (decodeWord w = .ok (.stvewx vs ra rb) →
      vs.toNat = (w.extractLsb' 21 5).toNat ∧ vs.toNat < 32)) ∧
  (∀ (vs : VrName) (ra rb : GprName), ∃ w, decodeWord w = .ok (.stvewx128 vs ra rb)) ∧
  ∀ (vs : VrName) (ra rb : GprName), vs.toNat < 32 → ∃ w, decodeWord w = .ok (.stvewx vs ra rb)

/-! ### Operands -/

/-- R42: the base of both instructions is 0 where the field is 0, and then `r0` is not read (its
contents do not matter); else it is the register; `RB = 0` reads `r0`. That the address is the low
half of base + index is R51, and for `stvewx128` the spec's own inference (R54, decision D18;
log 21). -/
def Obligations.BaseOperandIsZeroOrTheRegister : Prop :=
  (∀ t : Thread, readRA0 t 0 = 0) ∧
  (∀ (t : Thread) (ra : GprName), ra ≠ 0 → readRA0 t ra = t.gpr[ra.toNat]'ra.isLt) ∧
  (∀ (t : Thread) (rb : GprName) (x : Dword), rb ≠ 0 →
    effectiveAddress { t with gpr := t.gpr.set 0 x } 0 rb = effectiveAddress t 0 rb) ∧
  (∀ (t : Thread) (x : Dword),
    effectiveAddress { t with gpr := t.gpr.set 0 x } 0 0 = x.setWidth 32) ∧
  ∀ (i : Instr) (t : Thread),
    instrEA i t = (readRA0 t (instrRA i) + readGpr t (instrRB i)).setWidth 32

/-- R51: the effective address of both instructions, by its defining equations and as a sum modulo
2^32; the aligned address is the one stored to; no base register is updated. For `stvewx128` that the
address is the one of R51 is the spec's own inference (R54, decision D18; log 21). -/
def Obligations.EffectiveAddressOfBothInstructions : Prop :=
  ∀ (i : Instr) (s : State),
    let base : Dword :=
      if instrRA i = 0 then 0 else s.cur.gpr[(instrRA i).toNat]'(instrRA i).isLt
    let index : Dword := s.cur.gpr[(instrRB i).toNat]'(instrRB i).isLt
    instrEA i s.cur = (base + index).setWidth 32 ∧
    (instrEA i s.cur).toNat = (base.toNat % 2 ^ 32 + index.toNat % 2 ^ 32) % 2 ^ 32 ∧
    instrAddress i s.cur = instrEA i s.cur &&& 0xFFFFFFFC#32 ∧
    ∀ t, exec i s = .next t →
      t.stores.head?.map StoreEvent.addr = some (instrAddress i s.cur) ∧
      t.cur.gpr = s.cur.gpr

/-- R52: the lane is `EA[3:2]`, the word its four bytes with the first the most significant;
`EA[1:0]` affects neither lane nor address, `EA[31:4]` not the lane, and no other lane the word. -/
def Obligations.LaneAndStoredWord : Prop :=
  (∀ (i : Instr) (s : State),
    let v : VReg := s.cur.vr[(instrVs i).toNat]'(instrVs i).isLt
    let slot := (instrEA i s.cur).toNat % 16 / 4
    laneSlot (instrEA i s.cur) = (instrEA i s.cur).extractLsb' 2 2 ∧
    (laneSlot (instrEA i s.cur)).toNat = slot ∧
    instrWord i s.cur = v[4 * slot]! ++ v[4 * slot + 1]! ++ v[4 * slot + 2]! ++ v[4 * slot + 3]! ∧
    ∀ t, exec i s = .next t → t.stores.head?.map StoreEvent.word = some (instrWord i s.cur)) ∧
  (∀ a b : Addr, a.toNat / 4 = b.toNat / 4 → laneSlot a = laneSlot b ∧ alignWord a = alignWord b) ∧
  (∀ a b : Addr, a.toNat % 16 = b.toNat % 16 → laneSlot a = laneSlot b) ∧
  ∀ (v v' : VReg) (slot : BitVec 2),
    (∀ k < 4, v'[4 * slot.toNat + k]? = v[4 * slot.toNat + k]?) → laneWord v' slot = laneWord v slot

/-- R9, R19: only bits 31:0 of the general registers can influence a store. -/
def Obligations.UpperRegisterHalvesDoNotMatter : Prop :=
  ∀ (i : Instr) (s : State) (g : Vector Dword 32),
    (∀ r : Fin 32, (g[r]).setWidth 32 = (s.cur.gpr[r]).setWidth 32) →
    exec i (s.setCur { s.cur with gpr := g }) =
      onNext (fun t => t.setCur { t.cur with gpr := g }) (exec i s)

/-! ### Memory -/

/-- R22: the four bytes of an aligned word and no other, most significant first; the word read back,
its bytes and its halfwords; the top of the space is not passed; `MemRead` is the converse, of any
four bytes that memory holds. -/
def Obligations.MemWriteIsBigEndian : Prop :=
  (∀ (m : Memory) (a : Addr) (w : Word), a.toNat % 4 = 0 →
    a.toNat + 3 < 2 ^ 32 ∧
    Memory.read (Memory.writeWord m a w) a.toNat = some (w.extractLsb' 24 8) ∧
    Memory.read (Memory.writeWord m a w) (a.toNat + 1) = some (w.extractLsb' 16 8) ∧
    Memory.read (Memory.writeWord m a w) (a.toNat + 2) = some (w.extractLsb' 8 8) ∧
    Memory.read (Memory.writeWord m a w) (a.toNat + 3) = some (w.extractLsb' 0 8) ∧
    (∀ x, x < a.toNat ∨ a.toNat + 4 ≤ x →
      Memory.read (Memory.writeWord m a w) x = Memory.read m x) ∧
    Memory.readWord (Memory.writeWord m a w) a = w) ∧
  (∀ w : Word, w.extractLsb' 24 8 ++ w.extractLsb' 16 8 = w.extractLsb' 16 16 ∧
    w.extractLsb' 8 8 ++ w.extractLsb' 0 8 = w.extractLsb' 0 16) ∧
  (∀ (m : Memory) (a : Addr), a.toNat % 4 = 0 →
    Memory.readWord m a = Memory.byte m a.toNat ++ Memory.byte m (a.toNat + 1) ++
      Memory.byte m (a.toNat + 2) ++ Memory.byte m (a.toNat + 3)) ∧
  ∀ (m : Memory) (a : Nat) (b : Byte), Memory.read m a = some b → Memory.byte m a = b

/-- R23: the access of both instructions is at a multiple of 4 whatever `EA` is and touches its four
bytes alone, it crosses no boundary of a power of two from 4 up and not the top of the space, no
alignment fault exists, `EA[3:2]` selects the lane, and an `EA` that differs in its low two bits makes
no difference at all. -/
def Obligations.DataAccessIsAlwaysAligned : Prop :=
  ∀ (i : Instr) (s : State),
    (instrAddress i s.cur).toNat = (instrEA i s.cur).toNat / 4 * 4 ∧
    (instrAddress i s.cur).toNat + 3 < 2 ^ 32 ∧
    (∀ n ≥ 2, ∀ k < 4,
      ((instrAddress i s.cur).toNat + k) / 2 ^ n = (instrAddress i s.cur).toNat / 2 ^ n) ∧
    (∀ t a, exec i s = .next t →
      a < (instrAddress i s.cur).toNat ∨ (instrAddress i s.cur).toNat + 4 ≤ a →
      Memory.read t.mem a = Memory.read s.mem a) ∧
    (∀ f, exec i s = .fault f →
      f = .pcOverflow s.cur.pc ∨ f = .storageFault (instrAddress i s.cur) .write) ∧
    (laneSlot (instrEA i s.cur)).toNat = (instrEA i s.cur).toNat / 4 % 4 ∧
    ∀ j : Instr, instrVs j = instrVs i →
      (instrEA j s.cur).toNat / 4 = (instrEA i s.cur).toNat / 4 → exec j s = exec i s

/-- A store to a word that overlaps `TEXT` (R34), a device (R27, R69) or the end of the space is not
admitted, whatever the map says. That the model's map is a list of regions is log 2. -/
def Obligations.TextAndDevicesAreNotAdmittedForWrite : Prop :=
  ∀ (p : Platform) (a k : Nat), k < 4 →
    p.inText (a + k) = true ∨ p.inDevice (a + k) = true ∨ 2 ^ 32 ≤ a + k →
    p.admits a 4 .write = false

/-! ### What the instructions do -/

/-- The whole effect of an instruction in a state that permits it: it answers a next state in which
the four bytes of the lane lie at `ea` and every other byte is as before (R53, net effect), `pc` has
gone up by 4 and the thread has nothing else changed, nor have the other threads or the parameters;
of the reservations exactly those are left that the store does not overlap, and the storing thread's
own where the free value keeps it (R33; that form is log 10); and one write event is recorded (R26;
that form is log 18). The conditions are those under which neither `PcOverflow` (decision D5, log 15)
nor `StorageFault` (decision D10, log 2) is raised. -/
def StoresItsLane (i : Instr) (s : State) : Prop :=
  s.cur.pc.toNat + 4 < 2 ^ 32 →
  (∀ k < 4, s.platform.admitsByte ((instrAddress i s.cur).toNat + k) .write = true) →
  ∃ t, exec i s = .next t ∧
    (∀ k < 4, Memory.read t.mem ((instrAddress i s.cur).toNat + k) =
      (readVr s.cur (instrVs i))[4 * ((instrEA i s.cur).toNat % 16 / 4) + k]?) ∧
    (∀ a, a < (instrAddress i s.cur).toNat ∨ (instrAddress i s.cur).toNat + 4 ≤ a →
      Memory.read t.mem a = Memory.read s.mem a) ∧
    t.cur = { s.cur with pc := s.cur.pc + 4 } ∧ t.others = s.others ∧ t.platform = s.platform ∧
    t.reservations.Sublist s.reservations ∧
    (∀ r ∈ s.reservations, (r ∈ t.reservations ↔
      ¬(r.granule < (instrAddress i s.cur).toNat + 4 ∧
        (instrAddress i s.cur).toNat < r.granule + 4 * 2 ^ s.platform.granuleExp) ∨
      r.agent = s.cur.id ∧ Config.keepOwnReservation s.draws = true)) ∧
    t.stores = ⟨s.cur.id, instrAddress i s.cur, Memory.wordBytes s.mem (instrAddress i s.cur),
      instrWord i s.cur⟩ :: s.stores

/-- R53: `stvewx` completes, with every operand. The terms with `VS` above 31, which no word encodes
and which are ill formed, run like the others: that is the model's choice (log 23). -/
def Obligations.StvewxStoresItsLane : Prop :=
  ∀ (vs : VrName) (ra rb : GprName) (s : State), StoresItsLane (.stvewx vs ra rb) s

/-- R54: `stvewx128` completes, with every operand. That its address is that of R51 is decision D18
(log 21). -/
def Obligations.Stvewx128StoresItsLane : Prop :=
  ∀ (vs : VrName) (ra rb : GprName) (s : State), StoresItsLane (.stvewx128 vs ra rb) s

/-- R25: exactly four bytes are written, from the lane; no byte outside the word changes; what memory
held is not read: any other memory gives the same store. -/
def Obligations.StoresExactlyFourBytes : Prop :=
  ∀ (i : Instr) (s t : State), exec i s = .next t →
    (instrAddress i s.cur).toNat = (instrEA i s.cur).toNat / 4 * 4 ∧
    (∀ k < 4, Memory.read t.mem ((instrAddress i s.cur).toNat + k) =
      (readVr s.cur (instrVs i))[4 * ((instrEA i s.cur).toNat % 16 / 4) + k]?) ∧
    (∀ a, a < (instrAddress i s.cur).toNat ∨ (instrAddress i s.cur).toNat + 4 ≤ a →
      Memory.read t.mem a = Memory.read s.mem a) ∧
    ∀ m : Memory, ∃ u, exec i (s.setMem m) = .next u ∧ u.cur = t.cur ∧ u.others = t.others ∧
      u.reservations = t.reservations ∧
      (∀ k < 4, Memory.read u.mem ((instrAddress i s.cur).toNat + k) =
        Memory.read t.mem ((instrAddress i s.cur).toNat + k)) ∧
      ∀ a, a < (instrAddress i s.cur).toNat ∨ (instrAddress i s.cur).toNat + 4 ≤ a →
        Memory.read u.mem a = Memory.read m a

/-- R13: the condition register, XER and the floating-point registers are neither written nor
read. -/
def Obligations.StatusRegistersAreNeitherReadNorWritten : Prop :=
  ∀ (i : Instr) (s : State) (cr : Nat) (xer : Xer) (fpr : List Nat),
    exec i (s.setCur { s.cur with cr := cr, xer := xer, fpr := fpr }) =
      onNext (fun t => t.setCur { t.cur with cr := cr, xer := xer, fpr := fpr }) (exec i s) ∧
    ∀ t, exec i s = .next t →
      t.cur.cr = s.cur.cr ∧ t.cur.xer = s.cur.xer ∧ t.cur.fpr = s.cur.fpr

/-- The frame of `stvewx` and `stvewx128` (R55): every register but `pc`, every flag, every other
thread and every parameter as before; of memory the four bytes at `ea` alone; one write event added.
-/
def Obligations.ElementStoreFrame : Prop :=
  ∀ (i : Instr) (s t : State), exec i s = .next t →
    t.cur.gpr = s.cur.gpr ∧ t.cur.vr = s.cur.vr ∧ t.cur.cr = s.cur.cr ∧ t.cur.xer = s.cur.xer ∧
    t.cur.fpr = s.cur.fpr ∧ t.cur.id = s.cur.id ∧ t.cur.mark = s.cur.mark ∧
    t.cur.pc = s.cur.pc + 4 ∧ t.others = s.others ∧ t.platform = s.platform ∧
    t.stores.tail = s.stores ∧
    ∀ a, a < (instrAddress i s.cur).toNat ∨ (instrAddress i s.cur).toNat + 4 ≤ a →
      Memory.read t.mem a = Memory.read s.mem a

/-- R11, and R54 corner case 10: the two instructions with the same three numbers have one effect,
on one register file. The corner case speaks of `VS` below 32: that a `stvewx` term with `VS` above
31, which no word encodes, runs at all is the model's choice (log 23). That the two addresses agree
is decision D18 (log 21). -/
def Obligations.SiblingEncodingsHaveOneEffect : Prop :=
  ∀ (vs : VrName) (ra rb : GprName) (s : State),
    exec (.stvewx128 vs ra rb) s = exec (.stvewx vs ra rb) s

/-- R56: of the aligned 16-byte block that holds `ea`, the four bytes at the offset of `ea` become
those of the register at the same offset, and the twelve others stay. -/
def Obligations.StoreCopiesOneWordOfTheBlockImage : Prop :=
  ∀ (i : Instr) (s t : State), exec i s = .next t →
    let ea := (instrAddress i s.cur).toNat
    let blk := ea / 16 * 16
    let o := ea % 16
    o = 4 * (laneSlot (instrEA i s.cur)).toNat ∧
    ∀ j < 16, Memory.read t.mem (blk + j) =
      if o ≤ j ∧ j < o + 4 then (readVr s.cur (instrVs i))[j]? else Memory.read s.mem (blk + j)

/-- R56: four stores of one register, by either instruction and in any order, to the four words of an
aligned block leave the block equal to the register, and memory outside it as it was. -/
def Obligations.FourStoresSpillTheRegister : Prop :=
  ∀ (s : State) (vs : VrName) (is : List Instr) (blk : Nat), blk % 16 = 0 →
    (∀ i ∈ is, instrVs i = vs) →
    (is.map fun i => (instrAddress i s.cur).toNat).Perm [blk, blk + 4, blk + 8, blk + 12] →
    s.cur.pc.toNat + 16 < 2 ^ 32 →
    (∀ j < 16, s.platform.admitsByte (blk + j) .write = true) →
    ∃ t, execAll is s = .next t ∧ t.cur = { s.cur with pc := s.cur.pc + 16 } ∧
      (∀ j < 16, Memory.read t.mem (blk + j) = (readVr s.cur vs)[j]?) ∧
      ∀ a, a < blk ∨ blk + 16 ≤ a → Memory.read t.mem a = Memory.read s.mem a

/-- R33: of the reservations, none is made; another agent's whose granule overlaps the four bytes is
gone; one whose granule does not overlap them stays. The storing thread's own is kept or lost as a
free value says (log 10): that clause is the model's. The granule's size is the parameter. -/
def Obligations.ReservationsAfterAStore : Prop :=
  ∀ (i : Instr) (s t : State), exec i s = .next t → ∀ r : Reservation,
    let ea := (instrAddress i s.cur).toNat
    let overlaps := r.granule < ea + 4 ∧ ea < r.granule + 4 * 2 ^ s.platform.granuleExp
    (r ∈ t.reservations → r ∈ s.reservations) ∧
    (overlaps → r.agent ≠ s.cur.id → r ∉ t.reservations) ∧
    (¬overlaps → r ∈ s.reservations → r ∈ t.reservations) ∧
    (overlaps → r.agent = s.cur.id → r ∈ s.reservations →
      (r ∈ t.reservations ↔ Config.keepOwnReservation s.draws = true))

/-- R33: after a store no other agent holds a reservation on any of the four bytes, so a
store-conditional by it there must fail; what it held on bytes whose granule the store does not
overlap it still holds. -/
def Obligations.OtherAgentsLoseTheirReservations : Prop :=
  ∀ (i : Instr) (s t : State) (agent : Nat), exec i s = .next t → agent ≠ s.cur.id →
    (∀ k < 4, t.holdsReservation agent ((instrAddress i s.cur).toNat + k) = false) ∧
    ∀ a, (∀ r ∈ s.reservations, r.agent = agent →
        r.granule + 4 * 2 ^ s.platform.granuleExp ≤ (instrAddress i s.cur).toNat ∨
          (instrAddress i s.cur).toNat + 4 ≤ r.granule) →
      t.holdsReservation agent a = s.holdsReservation agent a

/-- R62, R64: which fault an instruction raises and when, `PcOverflow` before `StorageFault`, the
latter with the aligned address; it is never refused. The faults are the spec's decisions (D5, D9,
D10; log 2, log 15). -/
def Obligations.StopsOfAStore : Prop :=
  ∀ (i : Instr) (s : State),
    (∀ f, exec i s = .fault f ↔
      (2 ^ 32 ≤ s.cur.pc.toNat + 4 ∧ f = .pcOverflow s.cur.pc) ∨
      (s.cur.pc.toNat + 4 < 2 ^ 32 ∧
        (∃ k < 4, s.platform.admitsByte ((instrAddress i s.cur).toNat + k) .write = false) ∧
        f = .storageFault (instrAddress i s.cur) .write)) ∧
    ∀ r, exec i s ≠ .refused r

/-! ### What agents see of the stores -/

/-- R30: a thread sees its own store, whole and nothing else, and of two stores to one word the later
one's value stands. That what agents see is a view of the state is log 18. -/
def Obligations.OwnStoresAreSeenInProgramOrder : Prop :=
  ∀ (i j : Instr) (s t u : State), exec i s = .next t →
    (∀ seen, t.maySeeWord s.cur.id (instrAddress i s.cur) seen = true ↔
      ∀ k : Fin 4, some seen[k] =
        (readVr s.cur (instrVs i))[4 * ((instrEA i s.cur).toNat % 16 / 4) + k.val]?) ∧
    (exec j t = .next u → instrAddress j t.cur = instrAddress i s.cur →
      ∀ k < 4, Memory.read u.mem ((instrAddress i s.cur).toNat + k) =
        (readVr t.cur (instrVs j))[4 * ((instrEA j t.cur).toNat % 16 / 4) + k]?)

/-- R26: where word stores are not atomic, another agent may see any subset of the four bytes
updated. -/
def Obligations.OtherAgentsMaySeePartOfAStore : Prop :=
  ∀ (i : Instr) (s t : State) (agent : Nat) (updated : Vector Bool 4),
    exec i s = .next t → s.platform.wordStoreAtomic = false → agent ≠ s.cur.id →
    t.maySeeWord agent (instrAddress i s.cur)
      (Vector.ofFn fun k : Fin 4 =>
        if updated[k] then Memory.byte t.mem ((instrAddress i s.cur).toNat + k.val)
        else Memory.byte s.mem ((instrAddress i s.cur).toNat + k.val)) = true

/-- R26: where word stores are atomic, another agent sees the new word whole or what it could see of
the word before. -/
def Obligations.AtomicStoresAreSeenWhole : Prop :=
  ∀ (i : Instr) (s t : State) (agent : Nat) (seen : Vector Byte 4),
    exec i s = .next t → s.platform.wordStoreAtomic = true → agent ≠ s.cur.id →
    (t.maySeeWord agent (instrAddress i s.cur) seen = true ↔
      (∀ k : Fin 4, seen[k] = Memory.byte t.mem ((instrAddress i s.cur).toNat + k.val)) ∨
      s.maySeeWord agent (instrAddress i s.cur) seen = true)

/-- R31: two stores of one thread to different words may be seen in either order; to one word, not
against program order (decision D6; log 18). -/
def Obligations.StoresAreOrderedPerLocationOnly : Prop :=
  ∀ (i j : Instr) (s t u : State), exec i s = .next t → exec j t = .next u →
    u.mayThenSee s.stores.length (s.stores.length + 1) = true ∧
    (u.mayThenSee (s.stores.length + 1) s.stores.length = true ↔
      instrAddress i s.cur ≠ instrAddress j t.cur)

/-! ### A step of the machine -/

/-- A step runs the decoded instruction (R47): where the thread whose turn it is has neither
finished nor stopped and its `pc` is aligned, admitted for fetch and at bytes that decode to `i`,
the step is `exec i`, after which the turn passes; a machine of one thread keeps its turn. What the
machine makes of a stop, `afterTurn`, is log 12. -/
def Obligations.StepRunsTheDecodedInstruction : Prop :=
  ∀ (s : State) (i : Instr),
    s.cur.mark = none → s.cur.pc ≠ s.platform.endAddr → s.cur.pc.toNat % 4 = 0 →
    s.platform.admits s.cur.pc.toNat 4 .fetch = true →
    decode [Memory.byte s.mem s.cur.pc.toNat, Memory.byte s.mem (s.cur.pc.toNat + 1),
      Memory.byte s.mem (s.cur.pc.toNat + 2), Memory.byte s.mem (s.cur.pc.toNat + 3)] =
        .ok (i, []) →
    step s = afterTurn s (exec i s) ∧
    (∀ t, exec i s = .next t → step s = .next t.passTurn) ∧
    (s.others = [] → step s = exec i s)

/-- R47, R62, R64: a machine of one thread stops at a fetch that is not admitted, and is refused at a
word that is no instruction in scope, with the reasons the spec names (decisions D2, D9, D10). -/
def Obligations.FetchAndDecodeStops : Prop :=
  ∀ s : State, s.others = [] → s.cur.mark = none → s.cur.pc ≠ s.platform.endAddr →
    s.cur.pc.toNat % 4 = 0 →
    (s.platform.admits s.cur.pc.toNat 4 .fetch = false →
      step s = .fault (.storageFault s.cur.pc .fetch)) ∧
    ∀ e, s.platform.admits s.cur.pc.toNat 4 .fetch = true →
      decodeWord (Memory.readWord s.mem s.cur.pc) = .error e →
      step s = .refused (.refusedWord s.cur.pc (Memory.readWord s.mem s.cur.pc))

/-- R62: the machine's stops are those of the rule, with the information it says they carry, and one
of the model's own, at a `pc` that is no multiple of 4 (log 14). A word that nothing has loaded is
fetched like any other (R16, R17; log 8). -/
def Obligations.StopsAreThoseOfTheSpec : Prop :=
  ∀ s : State,
    (s.others = [] → s.cur.mark = none → s.cur.pc ≠ s.platform.endAddr → s.cur.pc.toNat % 4 ≠ 0 →
      step s = .fault (.pcMisaligned s.cur.pc)) ∧
    (∀ f, step s = .fault f →
      (s.cur.pc.toNat % 4 ≠ 0 ∧ f = .pcMisaligned s.cur.pc) ∨
      (s.cur.pc.toNat % 4 = 0 ∧ (f = .storageFault s.cur.pc .fetch ∨ f = .pcOverflow s.cur.pc ∨
        ∃ i, decodeWord (Memory.readWord s.mem s.cur.pc) = .ok i ∧
          f = .storageFault (instrAddress i s.cur) .write))) ∧
    ∀ r, step s = .refused r → r = .refusedWord s.cur.pc (Memory.readWord s.mem s.cur.pc)

/-- R64: the checks of a step of a thread that is neither finished nor stopped, in their order, whatever
memory holds at `pc`: fetch admitted, word decoded, `pc + 4` within the space, store admitted; with none
that fails the step is that of the instruction (decision D9; the launch premise of R24 is assumed).
-/
def Obligations.ChecksOfAStepInOrder : Prop :=
  ∀ s : State, s.others = [] → s.cur.mark = none → s.cur.pc ≠ s.platform.endAddr →
    s.cur.pc.toNat % 4 = 0 →
    let w := Memory.readWord s.mem s.cur.pc
    ((∃ k < 4, s.platform.admitsByte (s.cur.pc.toNat + k) .fetch = false) →
      step s = .fault (.storageFault s.cur.pc .fetch)) ∧
    ((∀ k < 4, s.platform.admitsByte (s.cur.pc.toNat + k) .fetch = true) →
      (∀ e, decodeWord w = .error e → step s = .refused (.refusedWord s.cur.pc w)) ∧
      ∀ i, decodeWord w = .ok i →
        (2 ^ 32 ≤ s.cur.pc.toNat + 4 → step s = .fault (.pcOverflow s.cur.pc)) ∧
        (s.cur.pc.toNat + 4 < 2 ^ 32 →
          ((∃ k < 4, s.platform.admitsByte ((instrAddress i s.cur).toNat + k) .write = false) →
            step s = .fault (.storageFault (instrAddress i s.cur) .write)) ∧
          ((∀ k < 4, s.platform.admitsByte ((instrAddress i s.cur).toNat + k) .write = true) →
            ∃ t, step s = .next t ∧ exec i s = .next t)))

/-- R62, R77: a thread that has finished, faulted or been refused takes no further step, whatever
memory holds at its `pc`; only the turn passes (log 13). -/
def Obligations.HaltedThreadTakesNoStep : Prop :=
  ∀ s : State, s.cur.pc = s.platform.endAddr ∨ s.cur.mark.isSome = true →
    step s = .next s.passTurn ∧ (s.others = [] → step s = .next s)

/-- R46, R62, R77: what stops one thread, a fault or a refusal, stops the machine only where no other
thread is live; else the thread is marked and nothing but the turn changes. The form of it is log 12.
-/
def Obligations.StopOfOneThreadMarksItAlone : Prop :=
  ∀ (s : State) (k : Stop), s.halted s.cur = false → threadStep s = stopOutcome k →
    (s.othersLive = false → step s = stopOutcome k) ∧
    (s.othersLive = true → ∃ t, step s = .next t ∧
      t.threads.Perm ({ s.cur with mark := some k } :: s.others) ∧
      t.mem = s.mem ∧ t.reservations = s.reservations ∧ t.stores = s.stores ∧
      t.platform = s.platform)

/-- The invariant that every step keeps: memory and the reservation table canonical, every `pc` a
multiple of 4 (R12), the threads' numbers distinct, every store at a multiple of 4 (R23). -/
def Obligations.StepKeepsTheInvariant : Prop :=
  ∀ s t : State, s.Inv → step s = .next t → t.Inv

/-- The reset state meets the invariant. -/
def Obligations.ResetMeetsTheInvariant : Prop := State.reset.Inv

/-- The reset state: `pc` is `ENTRY` and the mark clear (R17); the values of what R17 leaves open are
the model's choices (log 3, 4, 6, 7, 8, 11). -/
def Obligations.ResetState : Prop :=
  State.reset.cur.pc = State.reset.platform.entry ∧ State.reset.cur.mark = none ∧
  (∀ r : GprName, readGpr State.reset.cur r = 0) ∧
  (∀ v : VrName, readVr State.reset.cur v = Vector.replicate 16 0) ∧
  State.reset.mem = [] ∧ State.reset.reservations = [] ∧ State.reset.others = []

/-- R28, R34: no step changes a byte that is not admitted for write, one of the program text among
them, and no step changes what is admitted. -/
def Obligations.UnadmittedBytesNeverChange : Prop :=
  ∀ (s t : State), step s = .next t →
    t.platform = s.platform ∧
    ∀ a, s.platform.admitsByte a .write = false → Memory.read t.mem a = Memory.read s.mem a

/-- R55, R70: no step changes a register of any thread but `pc` (nor its number); of the threads
whose turn it is not, nothing at all changes. -/
def Obligations.NoStepWritesARegister : Prop :=
  ∀ s t : State, step s = .next t →
    (t.threads.map fun u => { u with pc := 0, mark := none }).Perm
      (s.threads.map fun u => { u with pc := 0, mark := none }) ∧
    ∀ u ∈ s.others, u ∈ t.threads

/-- R15, R33: no step makes a reservation. -/
def Obligations.NoStepMakesAReservation : Prop :=
  ∀ s t : State, step s = .next t → t.reservations.Sublist s.reservations

/-- R25, R30: if a step changes a byte of memory, the thread whose turn it is was not halted, and the
instruction it fetched stored that byte. -/
def Obligations.MemoryChangesOnlyWhereTheInstructionStores : Prop :=
  ∀ (s t : State) (a : Nat), step s = .next t → Memory.read t.mem a ≠ Memory.read s.mem a →
    s.halted s.cur = false ∧ ∃ w i, fetchWord s = .ok w ∧ decodeWord w = .ok i ∧
      (instrAddress i s.cur).toNat ≤ a ∧ a < (instrAddress i s.cur).toNat + 4 ∧
      Memory.read t.mem a = (readVr s.cur (instrVs i))[a % 16]?

/-! ### Programs in general (R74, R77) -/

/-- A launch that meets the premises of R74 and R77 is a run under way. -/
def Obligations.LaunchIsOnProgram : Prop :=
  ∀ s : State, s.LaunchPremises → s.OnProgram

/-- R74, R34: a run under way stays so; it is never refused, and its only faults are stores that are
not admitted, by the instruction that the thread at the turn has fetched. -/
def Obligations.ProgramIsNeverRefused : Prop :=
  ∀ s : State, s.OnProgram →
    (∀ t, step s = .next t → t.OnProgram) ∧
    (∀ f, step s = .fault f → ∃ w i, fetchWord s = .ok w ∧ decodeWord w = .ok i ∧
      f = .storageFault (instrAddress i s.cur) .write ∧
      s.platform.admits (instrAddress i s.cur).toNat 4 .write = false) ∧
    ∀ r, step s ≠ .refused r

/-- R59, R77: a machine of one thread with `n` words of program before it, each of whose stores is
admitted, comes to a good end in `n` steps, with its registers as they were but `pc`, one write event
for each word, and no byte changed that none of the words stores to. -/
def Obligations.StraightLineRunComesToAGoodEnd : Prop :=
  ∀ (s : State) (n : Nat), s.others = [] → s.cur.mark = none → s.OnProgram →
    s.cur.pc.toNat + 4 * n = s.platform.endAddr.toNat →
    (∀ p i, s.cur.pc.toNat ≤ p.toNat → p.toNat < s.platform.endAddr.toNat → p.toNat % 4 = 0 →
      decodeWord (Memory.readWord s.mem p) = .ok i →
      s.platform.admits (instrAddress i s.cur).toNat 4 .write = true) →
    ∃ t, Host.Core.run core n s = .next t ∧ t.goodEnd = true ∧
      t.cur = { s.cur with pc := s.platform.endAddr } ∧
      t.stores.length = s.stores.length + n ∧
      ∀ a, (∀ p i, s.cur.pc.toNat ≤ p.toNat → p.toNat < s.platform.endAddr.toNat →
          p.toNat % 4 = 0 → decodeWord (Memory.readWord s.mem p) = .ok i →
          a < (instrAddress i s.cur).toNat ∨ (instrAddress i s.cur).toNat + 4 ≤ a) →
        Memory.read t.mem a = Memory.read s.mem a

/-- R77: once the run is over it stays over, with the same end and the same memory; only the turn
passes (log 13). -/
def Obligations.EndOfTheRunIsForGood : Prop :=
  ∀ s : State, s.runOver = true → ∃ t, step s = .next t ∧ t.runOver = true ∧
    t.goodEnd = s.goodEnd ∧ t.mem = s.mem ∧ t.threads.Perm s.threads

/-- The load of one instruction from outside (log 22): the next step of the machine runs exactly that
instruction, on the registers as they were. -/
def Obligations.LoadedInstructionIsTheNextOne : Prop :=
  ∀ (s : State) (i : Instr), i.WellFormed → s.cur.pc.toNat % 4 = 0 →
    let l := s.withFetchWord 32 (encode i).toNat
    step l = afterTurn l (exec i l) ∧ l.cur = { s.cur with mark := none } ∧
      l.others = s.others ∧ l.reservations = s.reservations
end

