-- ==== Sys2Proof/Laws/PerInstr.lean ====
section
/-! SUPPORT. Statements made once per constructor of `Instr`: the fixed bits of its encoding. -/

namespace Sys2Proof

theorem OpcodeRow.matchesWord_iff (r : OpcodeRow) (w : Word) :
    r.matchesWord w = true ↔ w &&& r.mask = r.bits := decide_eq_true_iff

/-- The row of the opcode table that an instruction belongs to. -/
def rowOf : Instr → OpcodeRow
  | .stvewx _ _ _ => rowStvewx
  | .stvewx128 _ _ _ => rowStvewx128

/-- Whatever its operands, the encoding of an instruction has the fixed bits of its row (R37, R38,
R50). -/
def Laws.FixedBits.Statement (i : Instr) : Prop := (rowOf i).matchesWord (encode i) = true

theorem Laws.FixedBits.stvewx (vs : VrName) (ra rb : GprName) :
    Laws.FixedBits.Statement (.stvewx vs ra rb) := by
  rw [Laws.FixedBits.Statement, OpcodeRow.matchesWord_iff]
  simp only [rowOf, rowStvewx, encode]
  refine BitVec.eq_of_getLsbD_eq fun i hi => ?_
  interval_cases i <;> simp

theorem Laws.FixedBits.stvewx128 (vs : VrName) (ra rb : GprName) :
    Laws.FixedBits.Statement (.stvewx128 vs ra rb) := by
  rw [Laws.FixedBits.Statement, OpcodeRow.matchesWord_iff]
  simp only [rowOf, rowStvewx128, encode]
  refine BitVec.eq_of_getLsbD_eq fun i hi => ?_
  interval_cases i <;> simp

/-- No word belongs to both rows: their primary opcodes differ (R47). -/
theorem rows_disjoint (w : Word) :
    ¬(rowStvewx.matchesWord w = true ∧ rowStvewx128.matchesWord w = true) := by
  simp only [OpcodeRow.matchesWord_iff, rowStvewx, rowStvewx128]
  rintro ⟨h1, h2⟩
  have e1 := congrArg (·.getLsbD 27) h1
  have e2 := congrArg (·.getLsbD 27) h2
  simp at e1 e2
  simp [e1] at e2

end Sys2Proof
end

