-- ==== Sys2Proof/Laws/Decode.lean ====
section
/-! SUPPORT. The pieces that the decoder and the encoder are made of, bit by bit. -/

namespace Sys2Proof

/-- A word under a mask, bit by bit. -/
theorem getLsbD_of_mask {w m v : Word} (h : w &&& m = v) (i : Nat) :
    (w.getLsbD i && m.getLsbD i) = v.getLsbD i := by
  rw [← h, BitVec.getLsbD_and]

/-- A word cut into its bytes is the word of those bytes (R21). -/
theorem wordOfBytes_extract (w : Word) :
    wordOfBytes (w.extractLsb' 24 8) (w.extractLsb' 16 8) (w.extractLsb' 8 8)
      (w.extractLsb' 0 8) = w := by
  unfold wordOfBytes
  refine BitVec.eq_of_getLsbD_eq fun i hi => ?_
  simp only [BitVec.getLsbD_extractLsb', BitVec.getLsbD_append]
  interval_cases i <;> simp

theorem joinVs_getLsbD (h : BitVec 2) (l : BitVec 5) (i : Nat) :
    (joinVs h l).getLsbD i = if i < 5 then l.getLsbD i else h.getLsbD (i - 5) := by
  unfold joinVs; rw [BitVec.getLsbD_append]

theorem joinVs_toNat (h : BitVec 2) (l : BitVec 5) :
    (joinVs h l).toNat = 32 * h.toNat + l.toNat := by
  unfold joinVs
  rw [BitVec.toNat_append, ← Nat.shiftLeft_add_eq_or_of_lt (BitVec.isLt _), Nat.shiftLeft_eq,
    Nat.mul_comm]

/-- The two fields of a 7-bit register number joined again (R41). -/
theorem joinVs_extract (vs : VrName) : joinVs (vs.extractLsb' 5 2) (vs.extractLsb' 0 5) = vs := by
  refine BitVec.eq_of_getLsbD_eq fun i hi => ?_
  simp only [joinVs_getLsbD, BitVec.getLsbD_extractLsb']
  interval_cases i <;> simp

/-- A number below 32 has no high field. -/
theorem joinVs_extract_small {vs : VrName} (h : vs.toNat < 32) :
    joinVs 0 (vs.extractLsb' 0 5) = vs := by
  have hz : vs.extractLsb' 5 2 = 0 := by
    refine BitVec.eq_of_toNat_eq ?_
    simp only [BitVec.extractLsb'_toNat, Nat.shiftRight_eq_div_pow]
    exact Nat.mod_eq_zero_of_dvd (by simp [Nat.div_eq_of_lt h])
  rw [← hz]
  exact joinVs_extract vs

/-- The operand fields of an encoded `stvewx` (R37, R50). -/
theorem fields_encode_stvewx (vs : VrName) (ra rb : GprName) :
    fieldVsLow (encode (.stvewx vs ra rb)) = vs.extractLsb' 0 5 ∧
    fieldRA (encode (.stvewx vs ra rb)) = ra ∧ fieldRB (encode (.stvewx vs ra rb)) = rb := by
  unfold fieldVsLow fieldRA fieldRB encode
  refine ⟨?_, ?_, ?_⟩ <;> refine BitVec.eq_of_getLsbD_eq fun i hi => ?_ <;>
    interval_cases i <;> simp

/-- The operand fields of an encoded `stvewx128` (R38, R50). -/
theorem fields_encode_stvewx128 (vs : VrName) (ra rb : GprName) :
    fieldVsLow (encode (.stvewx128 vs ra rb)) = vs.extractLsb' 0 5 ∧
    fieldVsHigh (encode (.stvewx128 vs ra rb)) = vs.extractLsb' 5 2 ∧
    fieldRA (encode (.stvewx128 vs ra rb)) = ra ∧
    fieldRB (encode (.stvewx128 vs ra rb)) = rb := by
  unfold fieldVsLow fieldVsHigh fieldRA fieldRB encode
  refine ⟨?_, ?_, ?_, ?_⟩ <;> refine BitVec.eq_of_getLsbD_eq fun i hi => ?_ <;>
    interval_cases i <;> simp

/-- All that the decoder can do with a word (R47). -/
theorem decodeWord_cases (w : Word) :
    (rowStvewx.matchesWord w = true ∧
      decodeWord w = .ok (.stvewx (joinVs 0 (fieldVsLow w)) (fieldRA w) (fieldRB w))) ∨
    (rowStvewx128.matchesWord w = true ∧ decodeWord w =
      .ok (.stvewx128 (joinVs (fieldVsHigh w) (fieldVsLow w)) (fieldRA w) (fieldRB w))) ∨
    (rowStvewx.matchesWord w = false ∧ rowStvewx128.matchesWord w = false ∧
      ∃ e, decodeWord w = .error e) := by
  unfold decodeWord
  by_cases h1 : rowStvewx.matchesWord w = true
  · exact .inl ⟨h1, if_pos h1⟩
  · by_cases h2 : rowStvewx128.matchesWord w = true
    · exact .inr (.inl ⟨h2, by rw [if_neg h1, if_pos h2]⟩)
    · refine .inr (.inr ⟨by simpa using h1, by simpa using h2, ?_⟩)
      rw [if_neg h1, if_neg h2]
      split
      · exact ⟨_, rfl⟩
      · split <;> exact ⟨_, rfl⟩

end Sys2Proof
end

