-- ==== Sys2Proof/Laws/Memory.lean ====
section
/-! SUPPORT. The laws of memory: what a write does to every read, and that each operation keeps the
canonical form. -/

namespace Sys2Proof.Machine

theorem Memory.read_write (m : Memory) (a x : Nat) (b : Byte) :
    Memory.read (Memory.write m a b) x = if x = a then some b else Memory.read m x := by
  induction m with
  | nil => simp [Memory.write, Memory.read, eq_comm]
  | cons c m ih =>
    by_cases h1 : a < c.1
    · simp [Memory.write, h1, Memory.read, eq_comm]
    · by_cases h2 : a = c.1
      · subst h2
        simp only [Memory.write, lt_self_iff_false, if_false, if_true, Memory.read]
        by_cases hx : c.1 = x
        · simp [hx]
        · simp [hx, Ne.symm hx]
      · simp only [Memory.write, h1, h2, if_false, Memory.read, ih]
        by_cases hx : c.1 = x
        · have : x ≠ a := fun e => h2 (by omega)
          simp [hx, this]
        · simp [hx]

theorem Memory.mem_write {m : Memory} {a : Nat} {b : Byte} {c : Host.Cell}
    (h : c ∈ Memory.write m a b) : c = (a, b) ∨ c ∈ m := by
  induction m with
  | nil => simpa [Memory.write] using h
  | cons d m ih =>
    simp only [Memory.write] at h
    split at h
    · simpa using h
    · split at h
      · rcases List.mem_cons.1 h with h | h
        · exact .inl h
        · exact .inr (List.mem_cons_of_mem _ h)
      · rcases List.mem_cons.1 h with h | h
        · exact .inr (h ▸ List.mem_cons_self ..)
        · exact (ih h).imp_right (List.mem_cons_of_mem _)

theorem Memory.wf_write {m : Memory} (h : Memory.wf m) {a : Nat} (ha : a < 2 ^ 32) (b : Byte) :
    Memory.wf (Memory.write m a b) := by
  refine ⟨?_, fun c hc => (Memory.mem_write hc).elim (fun e => e ▸ ha) (h.2 c)⟩
  have hp := h.1
  clear h
  induction m with
  | nil => simp [Memory.write]
  | cons c m ih =>
    obtain ⟨hc, hm⟩ := List.pairwise_cons.1 hp
    simp only [Memory.write]
    split
    · rename_i h1
      refine List.pairwise_cons.2 ⟨fun d hd => ?_, hp⟩
      rcases List.mem_cons.1 hd with rfl | hd
      · exact h1
      · exact lt_trans h1 (hc d hd)
    · split
      · rename_i h2
        exact List.pairwise_cons.2 ⟨fun d hd => by simpa [h2] using hc d hd, hm⟩
      · rename_i h1 h2
        refine List.pairwise_cons.2 ⟨fun d hd => ?_, ih hm⟩
        rcases Memory.mem_write hd with rfl | hd
        · simp only; omega
        · exact hc d hd

theorem Memory.wf_writeWord {m : Memory} (h : Memory.wf m) (a : Addr) (w : Word) :
    Memory.wf (Memory.writeWord m a w) := by
  unfold Memory.writeWord
  exact Memory.wf_write (Memory.wf_write (Memory.wf_write (Memory.wf_write h (by omega) _)
    (by omega) _) (by omega) _) (by omega) _

/-- An aligned word does not wrap: its bytes are at the next numbers. -/
theorem toNat_add_of_aligned {a : Addr} (h : a.toNat % 4 = 0) :
    (a + 1).toNat = a.toNat + 1 ∧ (a + 2).toNat = a.toNat + 2 ∧ (a + 3).toNat = a.toNat + 3 := by
  have := a.isLt
  refine ⟨?_, ?_, ?_⟩ <;> bv_omega

/-- What every read sees after a word is written at a multiple of 4 (R22). -/
theorem Memory.read_writeWord (m : Memory) {a : Addr} (h : a.toNat % 4 = 0) (w : Word) (x : Nat) :
    Memory.read (Memory.writeWord m a w) x =
      if x = a.toNat + 3 then some (w.extractLsb' 0 8)
      else if x = a.toNat + 2 then some (w.extractLsb' 8 8)
      else if x = a.toNat + 1 then some (w.extractLsb' 16 8)
      else if x = a.toNat then some (w.extractLsb' 24 8)
      else Memory.read m x := by
  obtain ⟨h1, h2, h3⟩ := toNat_add_of_aligned h
  simp only [Memory.writeWord, Memory.read_write, h1, h2, h3]

/-- Outside the four bytes of an aligned word nothing changes (R22). -/
theorem Memory.read_writeWord_other (m : Memory) {a : Addr} (h : a.toNat % 4 = 0) (w : Word)
    {x : Nat} (hx : x < a.toNat ∨ a.toNat + 4 ≤ x) :
    Memory.read (Memory.writeWord m a w) x = Memory.read m x := by
  rw [Memory.read_writeWord m h, if_neg (by omega), if_neg (by omega), if_neg (by omega),
    if_neg (by omega)]

end Sys2Proof.Machine
end

