-- ==== Sys2Proof/Laws/State.lean ====
section
/-! SUPPORT. What each update of the state leaves in each field. -/

namespace Sys2Proof.Machine

variable (s : State) (t : Thread) (m : Memory) (p : Platform) (a : Addr) (n : Nat) (w : Word)

/-! ### Threads -/

@[simp] theorem Thread.setPc_id : (t.setPc a).id = t.id := rfl
@[simp] theorem Thread.setPc_gpr : (t.setPc a).gpr = t.gpr := rfl
@[simp] theorem Thread.setPc_vr : (t.setPc a).vr = t.vr := rfl
@[simp] theorem Thread.setPc_pc : (t.setPc a).pc = a := rfl
@[simp] theorem Thread.setPc_cr : (t.setPc a).cr = t.cr := rfl
@[simp] theorem Thread.setPc_xer : (t.setPc a).xer = t.xer := rfl
@[simp] theorem Thread.setPc_fpr : (t.setPc a).fpr = t.fpr := rfl
@[simp] theorem Thread.setPc_mark : (t.setPc a).mark = t.mark := rfl

variable (k : Option Stop)

@[simp] theorem Thread.setMark_id : (t.setMark k).id = t.id := rfl
@[simp] theorem Thread.setMark_gpr : (t.setMark k).gpr = t.gpr := rfl
@[simp] theorem Thread.setMark_vr : (t.setMark k).vr = t.vr := rfl
@[simp] theorem Thread.setMark_pc : (t.setMark k).pc = t.pc := rfl
@[simp] theorem Thread.setMark_cr : (t.setMark k).cr = t.cr := rfl
@[simp] theorem Thread.setMark_xer : (t.setMark k).xer = t.xer := rfl
@[simp] theorem Thread.setMark_fpr : (t.setMark k).fpr = t.fpr := rfl
@[simp] theorem Thread.setMark_mark : (t.setMark k).mark = k := rfl

/-- The end of an instruction changes `pc` alone. -/
theorem Thread.complete_eq : t.complete = t.setPc (t.pc + 4) := rfl

@[simp] theorem Thread.complete_id : t.complete.id = t.id := rfl
@[simp] theorem Thread.complete_gpr : t.complete.gpr = t.gpr := rfl
@[simp] theorem Thread.complete_vr : t.complete.vr = t.vr := rfl
@[simp] theorem Thread.complete_pc : t.complete.pc = t.pc + 4 := rfl
@[simp] theorem Thread.complete_cr : t.complete.cr = t.cr := rfl
@[simp] theorem Thread.complete_xer : t.complete.xer = t.xer := rfl
@[simp] theorem Thread.complete_fpr : t.complete.fpr = t.fpr := rfl
@[simp] theorem Thread.complete_mark : t.complete.mark = t.mark := rfl

/-! ### The machine -/

@[simp] theorem State.setCur_cur : (s.setCur t).cur = t := rfl
@[simp] theorem State.setCur_others : (s.setCur t).others = s.others := rfl
@[simp] theorem State.setCur_mem : (s.setCur t).mem = s.mem := rfl
@[simp] theorem State.setCur_reservations : (s.setCur t).reservations = s.reservations := rfl
@[simp] theorem State.setCur_stores : (s.setCur t).stores = s.stores := rfl
@[simp] theorem State.setCur_platform : (s.setCur t).platform = s.platform := rfl
@[simp] theorem State.setCur_draws : (s.setCur t).draws = s.draws := rfl

@[simp] theorem State.setMem_cur : (s.setMem m).cur = s.cur := rfl
@[simp] theorem State.setMem_others : (s.setMem m).others = s.others := rfl
@[simp] theorem State.setMem_mem : (s.setMem m).mem = m := rfl
@[simp] theorem State.setMem_reservations : (s.setMem m).reservations = s.reservations := rfl
@[simp] theorem State.setMem_stores : (s.setMem m).stores = s.stores := rfl
@[simp] theorem State.setMem_platform : (s.setMem m).platform = s.platform := rfl
@[simp] theorem State.setMem_draws : (s.setMem m).draws = s.draws := rfl

@[simp] theorem State.setPlatform_cur : (s.setPlatform p).cur = s.cur := rfl
@[simp] theorem State.setPlatform_others : (s.setPlatform p).others = s.others := rfl
@[simp] theorem State.setPlatform_mem : (s.setPlatform p).mem = s.mem := rfl
@[simp] theorem State.setPlatform_reservations :
    (s.setPlatform p).reservations = s.reservations := rfl
@[simp] theorem State.setPlatform_stores : (s.setPlatform p).stores = s.stores := rfl
@[simp] theorem State.setPlatform_platform : (s.setPlatform p).platform = p := rfl
@[simp] theorem State.setPlatform_draws : (s.setPlatform p).draws = s.draws := rfl

@[simp] theorem State.killReservations_cur : (s.killReservations a n).cur = s.cur := rfl
@[simp] theorem State.killReservations_others : (s.killReservations a n).others = s.others := rfl
@[simp] theorem State.killReservations_mem : (s.killReservations a n).mem = s.mem := rfl
@[simp] theorem State.killReservations_reservations :
    (s.killReservations a n).reservations = s.reservations.filter fun r =>
      r.survives s.platform.granule s.cur.id (Config.keepOwnReservation s.draws) a.toNat n := rfl
@[simp] theorem State.killReservations_stores : (s.killReservations a n).stores = s.stores := rfl
@[simp] theorem State.killReservations_platform :
    (s.killReservations a n).platform = s.platform := rfl
@[simp] theorem State.killReservations_draws : (s.killReservations a n).draws = s.draws + 1 := rfl

@[simp] theorem State.storeWord_cur : (s.storeWord a w).cur = s.cur := rfl
@[simp] theorem State.storeWord_others : (s.storeWord a w).others = s.others := rfl
@[simp] theorem State.storeWord_mem : (s.storeWord a w).mem = Memory.writeWord s.mem a w := rfl
@[simp] theorem State.storeWord_reservations :
    (s.storeWord a w).reservations = s.reservations := rfl
@[simp] theorem State.storeWord_stores :
    (s.storeWord a w).stores = ⟨s.cur.id, a, Memory.wordBytes s.mem a, w⟩ :: s.stores := rfl
@[simp] theorem State.storeWord_platform : (s.storeWord a w).platform = s.platform := rfl
@[simp] theorem State.storeWord_draws : (s.storeWord a w).draws = s.draws := rfl

/-! ### Passing the turn -/

@[simp] theorem State.passTurn_mem : s.passTurn.mem = s.mem := by
  unfold State.passTurn; split <;> rfl
@[simp] theorem State.passTurn_reservations : s.passTurn.reservations = s.reservations := by
  unfold State.passTurn; split <;> rfl
@[simp] theorem State.passTurn_stores : s.passTurn.stores = s.stores := by
  unfold State.passTurn; split <;> rfl
@[simp] theorem State.passTurn_platform : s.passTurn.platform = s.platform := by
  unfold State.passTurn; split <;> rfl

/-- A machine of one thread keeps its turn. -/
theorem State.passTurn_alone (h : s.others = []) : s.passTurn = s := by
  unfold State.passTurn; simp [h]

/-- Whoever takes the turn, the threads are the same. -/
theorem pickThread_perm (u : Thread) (us : List Thread) (n : Nat) :
    ((pickThread u us n).1 :: (pickThread u us n).2).Perm (u :: us) := by
  induction us generalizing u n with
  | nil => simp [pickThread]
  | cons v vs ih =>
    cases n with
    | zero => simp [pickThread]
    | succ n =>
      simp only [pickThread]
      exact (List.Perm.swap _ _ _).trans ((ih v n).cons u)

/-- Passing the turn only puts the threads in another order. -/
theorem State.passTurn_perm : s.passTurn.threads.Perm s.threads := by
  unfold State.passTurn State.threads
  split
  · rename_i h; rw [h]
  · rename_i u us h
    rw [h]
    exact pickThread_perm s.cur (u :: us) _

end Sys2Proof.Machine
end

