-- ==== Sys2Proof/Laws/Store.lean ====
section
/-! SUPPORT. What the operand forms and the shared store can do, said once. -/

namespace Sys2Proof.Machine

theorem alignWord_toNat (ea : Addr) : (alignWord ea).toNat = ea.toNat / 4 * 4 := by
  have h : alignWord ea = (ea >>> 2) <<< 2 := by
    unfold alignWord
    refine BitVec.eq_of_getLsbD_eq fun i hi => ?_
    interval_cases i <;> simp
  rw [h]
  have := ea.isLt
  simp only [BitVec.toNat_shiftLeft, BitVec.toNat_ushiftRight, Nat.shiftLeft_eq,
    Nat.shiftRight_eq_div_pow]
  omega

theorem elementAddress_aligned (t : Thread) (ra rb : GprName) :
    (elementAddress t ra rb).toNat % 4 = 0 := by
  rw [elementAddress, alignWord_toNat]; omega

theorem instrAddress_aligned (i : Instr) (t : Thread) : (instrAddress i t).toNat % 4 = 0 :=
  elementAddress_aligned _ _ _

theorem laneSlot_toNat (ea : Addr) : (laneSlot ea).toNat = ea.toNat % 16 / 4 := by
  simp only [laneSlot, BitVec.extractLsb'_toNat, Nat.shiftRight_eq_div_pow]
  omega

/-- The bytes of four bytes joined, from the most significant. -/
theorem extract_join (b0 b1 b2 b3 : Byte) :
    (b0 ++ b1 ++ b2 ++ b3 : Word).extractLsb' 24 8 = b0 ∧
    (b0 ++ b1 ++ b2 ++ b3 : Word).extractLsb' 16 8 = b1 ∧
    (b0 ++ b1 ++ b2 ++ b3 : Word).extractLsb' 8 8 = b2 ∧
    (b0 ++ b1 ++ b2 ++ b3 : Word).extractLsb' 0 8 = b3 := by
  refine ⟨?_, ?_, ?_, ?_⟩ <;> refine BitVec.eq_of_getLsbD_eq fun i hi => ?_ <;>
    simp only [BitVec.getLsbD_extractLsb', BitVec.getLsbD_append] <;> interval_cases i <;> simp

/-- A word cut into bytes and joined again. -/
theorem join_extract (w : Word) :
    (w.extractLsb' 24 8 ++ w.extractLsb' 16 8 ++ w.extractLsb' 8 8 ++ w.extractLsb' 0 8 : Word)
      = w := by
  refine BitVec.eq_of_getLsbD_eq fun i hi => ?_
  simp only [BitVec.getLsbD_extractLsb', BitVec.getLsbD_append]
  interval_cases i <;> simp

/-- Byte `k` of the word in memory order is byte `k` of the lane (R22, R52). -/
theorem laneWord_extract (v : VReg) (slot : BitVec 2) :
    (laneWord v slot).extractLsb' 24 8 = laneByte v slot 0 ∧
    (laneWord v slot).extractLsb' 16 8 = laneByte v slot 1 ∧
    (laneWord v slot).extractLsb' 8 8 = laneByte v slot 2 ∧
    (laneWord v slot).extractLsb' 0 8 = laneByte v slot 3 :=
  extract_join _ _ _ _

/-- Every instruction is the shared store on its own operands. -/
theorem exec_eq_storeElement (i : Instr) (s : State) :
    exec i s = storeElement (instrVs i) (instrRA i) (instrRB i) s := by
  cases i <;> rfl

/-- The state that a store answers. -/
def stored (i : Instr) (s : State) : State :=
  ((s.killReservations (instrAddress i s.cur) 4).storeWord (instrAddress i s.cur)
    (instrWord i s.cur)).setCur s.cur.complete

/-- All that an instruction can do (R53, R54, R64). -/
theorem exec_cases (i : Instr) (s : State) :
    (pcAtTop s.cur.pc = true ∧ exec i s = .fault (.pcOverflow s.cur.pc)) ∨
    (pcAtTop s.cur.pc = false ∧ s.platform.admits (instrAddress i s.cur).toNat 4 .write = true ∧
      exec i s = .next (stored i s)) ∨
    (pcAtTop s.cur.pc = false ∧ s.platform.admits (instrAddress i s.cur).toNat 4 .write = false ∧
      exec i s = .fault (.storageFault (instrAddress i s.cur) .write)) := by
  rw [exec_eq_storeElement]
  unfold storeElement
  by_cases h1 : pcAtTop s.cur.pc = true
  · exact .inl ⟨h1, by simp [h1]⟩
  · by_cases h2 : s.platform.admits (instrAddress i s.cur).toNat 4 .write = true
    · exact .inr (.inl ⟨by simpa using h1, h2, by
        simp only [h1, Bool.false_eq_true, if_false, instrAddress] at h2 ⊢
        rw [if_pos h2]; rfl⟩)
    · exact .inr (.inr ⟨by simpa using h1, by simpa using h2, by
        simp only [h1, Bool.false_eq_true, if_false, instrAddress] at h2 ⊢
        rw [if_neg h2]⟩)

/-- Where an instruction answers a next state, it is `stored`. -/
theorem exec_next {i : Instr} {s t : State} (h : exec i s = .next t) :
    t = stored i s ∧ pcAtTop s.cur.pc = false ∧
      s.platform.admits (instrAddress i s.cur).toNat 4 .write = true := by
  rcases exec_cases i s with ⟨_, e⟩ | ⟨h1, h2, e⟩ | ⟨_, _, e⟩ <;> rw [e] at h
  · cases h
  · cases h; exact ⟨rfl, h1, h2⟩
  · cases h

@[simp] theorem stored_cur (i : Instr) (s : State) : (stored i s).cur = s.cur.complete := rfl
@[simp] theorem stored_others (i : Instr) (s : State) : (stored i s).others = s.others := rfl
@[simp] theorem stored_platform (i : Instr) (s : State) : (stored i s).platform = s.platform := rfl
@[simp] theorem stored_draws (i : Instr) (s : State) : (stored i s).draws = s.draws + 1 := rfl
@[simp] theorem stored_mem (i : Instr) (s : State) :
    (stored i s).mem = Memory.writeWord s.mem (instrAddress i s.cur) (instrWord i s.cur) := rfl
@[simp] theorem stored_stores (i : Instr) (s : State) :
    (stored i s).stores = ⟨s.cur.id, instrAddress i s.cur,
      Memory.wordBytes s.mem (instrAddress i s.cur), instrWord i s.cur⟩ :: s.stores := rfl
@[simp] theorem stored_reservations (i : Instr) (s : State) :
    (stored i s).reservations = s.reservations.filter fun r =>
      r.survives s.platform.granule s.cur.id (Config.keepOwnReservation s.draws)
        (instrAddress i s.cur).toNat 4 := rfl

/-- `Admit` of a word is `Admit` of its four bytes. -/
theorem Platform.admits_four (p : Platform) (a : Nat) (k : AccessKind) :
    p.admits a 4 k = true ↔ ∀ j < 4, p.admitsByte (a + j) k = true := by
  simp [Platform.admits]

/-- A byte admitted for a store is in neither `TEXT` nor a device. -/
theorem Platform.admitsByte_write {p : Platform} {a : Nat} (h : p.admitsByte a .write = true) :
    a < 2 ^ 32 ∧ p.inText a = false ∧ p.inDevice a = false := by
  simp [Platform.admitsByte] at h
  exact ⟨h.1.1, h.2⟩

/-! ### What a store leaves in memory, the reservation table and the events -/

theorem pcAtTop_eq_false (pc : Addr) : pcAtTop pc = false ↔ pc.toNat + 4 < 2 ^ 32 := by
  simp [pcAtTop]; omega

theorem instrAddress_toNat (i : Instr) (t : Thread) :
    (instrAddress i t).toNat = (instrEA i t).toNat / 4 * 4 := alignWord_toNat _

/-- Byte `k` of the selected lane, by its index in the register (R10, R52). -/
theorem laneByte_eq (i : Instr) (t : Thread) (k : Fin 4) :
    (readVr t (instrVs i))[4 * ((instrEA i t).toNat % 16 / 4) + k.val]? =
      some (laneByte (readVr t (instrVs i)) (laneSlot (instrEA i t)) k) := by
  have hs := laneSlot_toNat (instrEA i t)
  rw [getElem?_pos _ _ (by omega)]
  simp only [laneByte, hs]

/-- The four bytes at `ea` after a store: the lane, lowest address first (R53, net effect). -/
theorem read_stored (i : Instr) (s : State) {k : Nat} (hk : k < 4) :
    Memory.read (stored i s).mem ((instrAddress i s.cur).toNat + k) =
      (readVr s.cur (instrVs i))[4 * ((instrEA i s.cur).toNat % 16 / 4) + k]? := by
  have h := laneByte_eq i s.cur ⟨k, hk⟩
  obtain ⟨e0, e1, e2, e3⟩ :=
    laneWord_extract (readVr s.cur (instrVs i)) (laneSlot (instrEA i s.cur))
  have hw : instrWord i s.cur =
    laneWord (readVr s.cur (instrVs i)) (laneSlot (instrEA i s.cur)) := rfl
  rw [h, stored_mem, Memory.read_writeWord _ (instrAddress_aligned i s.cur), hw, e0, e1, e2, e3]
  interval_cases k <;> simp

/-- Every other byte after a store (R25). -/
theorem read_stored_other (i : Instr) (s : State) {a : Nat}
    (h : a < (instrAddress i s.cur).toNat ∨ (instrAddress i s.cur).toNat + 4 ≤ a) :
    Memory.read (stored i s).mem a = Memory.read s.mem a :=
  Memory.read_writeWord_other _ (instrAddress_aligned i s.cur) _ h

/-- A byte that is not admitted for write outlives every store that is done (R28, R34). -/
theorem read_stored_unadmitted {i : Instr} {s : State}
    (hw : s.platform.admits (instrAddress i s.cur).toNat 4 .write = true) {a : Nat}
    (ha : s.platform.admitsByte a .write = false) :
    Memory.read (stored i s).mem a = Memory.read s.mem a := by
  refine read_stored_other i s ?_
  by_contra hc
  have hb := (Platform.admits_four _ _ _).1 hw (a - (instrAddress i s.cur).toNat) (by omega)
  rw [show (instrAddress i s.cur).toNat + (a - (instrAddress i s.cur).toNat) = a by omega,
    ha] at hb
  cases hb

/-- A reservation is hit where its granule overlaps the four bytes (R33). -/
theorem Reservation.hit_four {g : Nat} (hg : 0 < g) (r : Reservation) (a : Nat) :
    r.hit g a 4 = true ↔ r.granule < a + 4 ∧ a < r.granule + g := by
  simp only [Reservation.hit, Reservation.covers, List.any_eq_true, List.mem_range,
    decide_eq_true_eq]
  constructor
  · rintro ⟨x, h, h1, h2⟩; omega
  · rintro ⟨h1, h2⟩
    by_cases h : r.granule ≤ a
    · exact ⟨0, by omega, by omega, by omega⟩
    · exact ⟨r.granule - a, by omega, by omega, by omega⟩

/-- The bytes of an aligned word, one by one. -/
theorem Memory.wordBytes_get (m : Memory) {a : Addr} (ha : a.toNat % 4 = 0) (k : Fin 4) :
    (Memory.wordBytes m a)[k] = Memory.read m (a.toNat + k.val) := by
  obtain ⟨e1, e2, e3⟩ := toNat_add_of_aligned ha
  simp only [Memory.wordBytes, e1, e2, e3]
  match k with
  | 0 => rfl
  | 1 => rfl
  | 2 => rfl
  | 3 => rfl

/-- A byte that was loaded or stored is the byte of memory (R16). -/
theorem Memory.byte_of_read {m : Memory} {a : Nat} {b : Byte} (h : Memory.read m a = some b) :
    Memory.byte m a = b := by
  simp [Memory.byte, h]

/-- Where what was loaded or stored is the same, the byte of memory is. -/
theorem Memory.byte_congr {m m' : Memory} {a : Nat} (h : Memory.read m' a = Memory.read m a) :
    Memory.byte m' a = Memory.byte m a := by
  simp only [Memory.byte, h]

/-- The word of memory at a multiple of 4 is its four bytes (R21, R22). -/
theorem Memory.readWord_eq (m : Memory) {a : Addr} (ha : a.toNat % 4 = 0) :
    Memory.readWord m a = wordOfBytes (Memory.byte m a.toNat) (Memory.byte m (a.toNat + 1))
      (Memory.byte m (a.toNat + 2)) (Memory.byte m (a.toNat + 3)) := by
  obtain ⟨e1, e2, e3⟩ := toNat_add_of_aligned ha
  simp only [Memory.readWord, e1, e2, e3]

/-- The bytes of an aligned word as an agent sees them, one by one (log 8). -/
theorem Memory.launchFill_wordBytes (m : Memory) {a : Addr} (ha : a.toNat % 4 = 0) (k : Fin 4) :
    (launchFill a (Memory.wordBytes m a))[k] = Memory.byte m (a.toNat + k.val) := by
  obtain ⟨e1, e2, e3⟩ := toNat_add_of_aligned ha
  simp only [launchFill, Memory.wordBytes, Memory.byte, e1, e2, e3]
  match k with
  | 0 => rfl
  | 1 => rfl
  | 2 => rfl
  | 3 => rfl

/-- A word whose four bytes read the same reads the same. -/
theorem Memory.readWord_congr {m m' : Memory} {a : Addr} (ha : a.toNat % 4 = 0)
    (h : ∀ k < 4, Memory.read m' (a.toNat + k) = Memory.read m (a.toNat + k)) :
    Memory.readWord m' a = Memory.readWord m a := by
  have h0 := Memory.byte_congr (h 0 (by omega))
  rw [Nat.add_zero] at h0
  rw [Memory.readWord_eq m' ha, Memory.readWord_eq m ha, h0, Memory.byte_congr (h 1 (by omega)),
    Memory.byte_congr (h 2 (by omega)), Memory.byte_congr (h 3 (by omega))]

end Sys2Proof.Machine
end

