-- ==== Sys2Proof/Laws/Step.lean ====
section
/-! SUPPORT. What a step of a thread and a step of the machine can do, said once. -/

namespace Sys2Proof.Machine

/-- All that a step of a thread can do (R8, R47, R64). -/
theorem threadStep_cases (s : State) :
    (∃ f, fetchWord s = .error f ∧ threadStep s = .fault f) ∨
    (∃ w e, fetchWord s = .ok w ∧ decodeWord w = .error e ∧
      threadStep s = .refused (.refusedWord s.cur.pc w)) ∨
    (∃ w i, fetchWord s = .ok w ∧ decodeWord w = .ok i ∧ threadStep s = exec i s) := by
  unfold threadStep
  cases hf : fetchWord s with
  | error f => exact .inl ⟨f, rfl, rfl⟩
  | ok w =>
    cases hd : decodeWord w with
    | error e => exact .inr (.inl ⟨w, e, rfl, hd, by simp only [hd]⟩)
    | ok i => exact .inr (.inr ⟨w, i, rfl, hd, by simp [hd]⟩)

/-- A fault lets the machine go on only where another thread is live (R62, R77). -/
theorem afterTurn_fault_next {s t : State} {f : Fault} (h : afterTurn s (.fault f) = .next t) :
    s.othersLive = true ∧ t = s.stopThread (.faulted f) := by
  simp only [afterTurn] at h
  split at h <;> cases h
  exact ⟨‹_›, rfl⟩

/-- A refusal lets the machine go on only where another thread is live (R62, R77). -/
theorem afterTurn_refused_next {s t : State} {r : Refusal}
    (h : afterTurn s (.refused r) = .next t) :
    s.othersLive = true ∧ t = s.stopThread (.refused r) := by
  simp only [afterTurn] at h
  split at h <;> cases h
  exact ⟨‹_›, rfl⟩

/-- Where the machine answers a next state, either its thread stood still, or it did a store, or it
stopped and was marked; then the turn passed on (R8, R62, R70, R77). -/
theorem step_next {s t : State} (h : step s = .next t) :
    (s.halted s.cur = true ∧ t = s.passTurn) ∨
    (s.halted s.cur = false ∧ ∃ w i, fetchWord s = .ok w ∧ decodeWord w = .ok i ∧
      exec i s = .next (stored i s) ∧ t = (stored i s).passTurn) ∨
    (s.halted s.cur = false ∧ s.othersLive = true ∧ ∃ k, t = s.stopThread k) := by
  unfold step at h
  split at h
  · rename_i hh
    cases h
    exact .inl ⟨hh, rfl⟩
  · rename_i hh
    have hh : s.halted s.cur = false := by simpa using hh
    have stops {f} (hs : afterTurn s (.fault f) = .next t) :
        s.othersLive = true ∧ ∃ k, t = s.stopThread k :=
      (afterTurn_fault_next hs).imp_right fun e => ⟨_, e⟩
    rcases threadStep_cases s with ⟨f, _, e⟩ | ⟨w, x, _, _, e⟩ | ⟨w, i, hf, hd, e⟩ <;> rw [e] at h
    · exact .inr (.inr ⟨hh, stops h⟩)
    · exact .inr (.inr ⟨hh, (afterTurn_refused_next h).imp_right fun e => ⟨_, e⟩⟩)
    · rcases exec_cases i s with ⟨_, e'⟩ | ⟨_, _, e'⟩ | ⟨_, _, e'⟩ <;> rw [e'] at h
      · exact .inr (.inr ⟨hh, stops h⟩)
      · cases h
        exact .inr (.inl ⟨hh, w, i, hf, hd, e', rfl⟩)
      · exact .inr (.inr ⟨hh, stops h⟩)

@[simp] theorem State.stopThread_mem (s : State) (k : Stop) : (s.stopThread k).mem = s.mem := by
  simp [State.stopThread]
@[simp] theorem State.stopThread_reservations (s : State) (k : Stop) :
    (s.stopThread k).reservations = s.reservations := by simp [State.stopThread]
@[simp] theorem State.stopThread_stores (s : State) (k : Stop) :
    (s.stopThread k).stores = s.stores := by simp [State.stopThread]
@[simp] theorem State.stopThread_platform (s : State) (k : Stop) :
    (s.stopThread k).platform = s.platform := by simp [State.stopThread]

theorem State.stopThread_perm (s : State) (k : Stop) :
    (s.stopThread k).threads.Perm (s.cur.setMark (some k) :: s.others) :=
  State.passTurn_perm _

theorem State.halted_eq_false {s : State} {t : Thread} (h1 : t.mark = none)
    (h2 : t.pc ≠ s.platform.endAddr) : s.halted t = false := by
  simp [State.halted, State.finished, h1, h2]

/-- The fetch where nothing stops it (R47). -/
theorem fetchWord_ok {s : State} (h1 : s.cur.pc.toNat % 4 = 0)
    (h2 : s.platform.admits s.cur.pc.toNat 4 .fetch = true) :
    fetchWord s = .ok (Memory.readWord s.mem s.cur.pc) := by
  simp [fetchWord, h1, h2]

/-- All that a fetch can do (R24, R47, R64). -/
theorem fetchWord_cases (s : State) :
    (s.cur.pc.toNat % 4 ≠ 0 ∧ fetchWord s = .error (.pcMisaligned s.cur.pc)) ∨
    (s.cur.pc.toNat % 4 = 0 ∧ s.platform.admits s.cur.pc.toNat 4 .fetch = false ∧
      fetchWord s = .error (.storageFault s.cur.pc .fetch)) ∨
    (s.cur.pc.toNat % 4 = 0 ∧ s.platform.admits s.cur.pc.toNat 4 .fetch = true ∧
      fetchWord s = .ok (Memory.readWord s.mem s.cur.pc)) := by
  by_cases h1 : s.cur.pc.toNat % 4 = 0
  · cases h2 : s.platform.admits s.cur.pc.toNat 4 .fetch with
    | false => exact .inr (.inl ⟨h1, rfl, by simp [fetchWord, h1, h2]⟩)
    | true => exact .inr (.inr ⟨h1, rfl, fetchWord_ok h1 h2⟩)
  · exact .inl ⟨h1, by simp [fetchWord, h1]⟩

/-- A machine of one thread makes nothing more of an outcome of `exec`. -/
theorem afterTurn_alone {s : State} (h : s.others = []) (i : Instr) :
    afterTurn s (exec i s) = exec i s := by
  have hl : s.othersLive = false := by simp [State.othersLive, h]
  rcases exec_cases i s with ⟨_, e⟩ | ⟨_, _, e⟩ | ⟨_, _, e⟩ <;> rw [e]
  · simp [afterTurn, hl]
  · simp only [afterTurn]
    rw [State.passTurn_alone _ (by simpa using h)]
  · simp [afterTurn, hl]

/-- One step more of a run of any machine. -/
theorem run_succ (M : Host.Core) (k : Nat) {x y : M.State} (h : M.step x = .next y) :
    M.run (k + 1) x = M.run k y := by
  simp only [Host.Core.run, h]

end Sys2Proof.Machine
end

