-- ==== Sys2Proof/Tests/Slice0.lean ====
section
/-! SUPPORT. Tests from the vectors of spec/95_test_vectors.md, and for every statement that has
hypotheses a witness that meets them. -/

namespace Sys2Proof.Tests

open Sys2Proof Sys2Proof.Machine

/-! ### Decoding -/

/-- A smoke test of `WellFormed`: `stvewx` cannot name `v32` (R50); `stvewx128` can (E8). -/
theorem test_wellFormed_smoke :
    ¬(Instr.stvewx 32 3 4).WellFormed ∧ (Instr.stvewx 31 3 4).WellFormed ∧
      (Instr.stvewx128 32 3 4).WellFormed := by decide

/-- `stvewx v1, r3, r4`, its fields written out from R37. -/
theorem test_decode_stvewx_by_fields :
    decodeWord (0b011111#6 ++ 0b00001#5 ++ 0b00011#5 ++ 0b00100#5 ++ 0b0011000111#10 ++ 0#1) =
      .ok (.stvewx 1 3 4) := by rfl

/-- `stvewx128 v100, r3, r4`, its fields written out from R38: 100 is `0b11_00100`. -/
theorem test_decode_stvewx128_by_fields :
    decodeWord (0b000100#6 ++ 0b00100#5 ++ 0b00011#5 ++ 0b00100#5 ++ 0b0011000#7 ++ 0b11#2 ++
      0b11#2) = .ok (.stvewx128 100 3 4) := by rfl

/-- Vectors E1, E3, E4 of `stvewx`. -/
theorem test_decode_stvewx_vectors :
    decodeTableWord 32 0x7C00018E = some (.stvewx 0 0 0) ∧
    decodeTableWord 32 0x7C20218E = some (.stvewx 1 0 4) ∧
    decodeTableWord 32 0x7C45298E = some (.stvewx 2 5 5) := by decide

/-- Vectors E6, E7, E8, E10 of `stvewx128`, and the neighbour of X4 to X6. -/
theorem test_decode_stvewx128_vectors :
    decodeTableWord 32 0x10000183 = some (.stvewx128 0 0 0) ∧
    decodeTableWord 32 0x10232183 = some (.stvewx128 1 3 4) ∧
    decodeTableWord 32 0x10032187 = some (.stvewx128 32 3 4) ∧
    decodeTableWord 32 0x100A598F = some (.stvewx128 96 10 11) ∧
    decodeTableWord 32 0x1000018F = some (.stvewx128 96 0 0) := by decide

/-- Vectors X1 to X10: each word is refused. -/
theorem test_decode_refuses :
    ∀ w ∈ [0x7C00018F, 0x7C00058E, 0x7800018E, 0x10000180, 0x10000181, 0x10000182, 0x10000193,
      0x1000018E, 0x7C000183, 0x00000000, 0xFFFFFFFF, 0x60000000],
      decodeTableWord 32 w = none := by decide

/-- The encoder on the worked words of R50. -/
theorem test_encode_worked :
    encode (.stvewx 1 3 4) = 0x7C23218E#32 ∧ encode (.stvewx128 100 3 4) = 0x1083218F#32 := by
  decide

/-- Too few bytes are rejected by name. -/
theorem test_decode_truncated : decode [0x7C, 0x23, 0x21] = .error .truncated := by rfl

/-- The assembler line of E3 (R48). -/
theorem test_assembly_text : assemblyText (.stvewx 1 0 4) = "stvewx v1, 0, r4".toList := by decide

/-! ### A small machine -/

/-- `V` of 95_test_vectors.md. -/
def bytesV : VReg := #v[0x00, 0x11, 0x22, 0x33, 0x44, 0x55, 0x66, 0x77, 0x88, 0x99, 0xAA, 0xBB,
  0xCC, 0xDD, 0xEE, 0xFF]

/-- The other register value of the vectors. -/
def bytesA : VReg := #v[0xA0, 0xA1, 0xA2, 0xA3, 0xA4, 0xA5, 0xA6, 0xA7, 0xA8, 0xA9, 0xAA, 0xAB,
  0xAC, 0xAD, 0xAE, 0xAF]

/-- `n` bytes of poison from `a` on. -/
def poison (a n : Nat) : Memory := (List.range n).map fun k => (a + k, 0xEE)

/-- Registers for the vectors: `v1`, `v32`, `v100` hold `V`, `v0` another value; `x[3] = 1000`,
`x[4]` as given, `x[5..7]` the next words, `x[8]` in the words' upper half, `x[0]` not zero. -/
def thread (id : Nat) (x4 : Dword) : Thread :=
  { Thread.reset id with
    gpr := ((((((Thread.reset id).gpr.set 0 0xDEADBEEF00002000).set 3 0x1000).set 4 x4).set 5
      0x4).set 6 0x8).set 7 0xC
    vr := ((((Thread.reset id).vr.set 0 bytesA).set 1 bytesV).set 32 bytesV).set 100 bytesV }

/-- One thread, poison from 0x0FFC to 0x1013. -/
def machine (x4 : Dword) : State :=
  { State.reset with cur := thread 0 x4, mem := poison 0xFFC 24 }

/-- The machine with one word loaded. -/
def loaded (x4 : Dword) (w : Nat) : State := (machine x4).withFetchWord 32 w

/-- The machine with a reservation table and the least granule, 4 bytes. -/
def reserved (x4 : Dword) (rs : List Reservation) : State :=
  { machine x4 with
    reservations := rs
    platform := { Platform.reset with granuleExp := 0 } }

/-- The machine with a second thread, which has not finished. -/
def twoThreads (w : Nat) : State := { loaded 7 w with others := [thread 1 7] }

/-- The outcome is a next state, and it has the property. -/
def nextIs (o : Host.Outcome State Fault Refusal) (p : State → Bool) : Bool :=
  match o with
  | .next t => p t
  | .fault _ => false
  | .refused _ => false

/-- The outcome is a next state. -/
def isNext (o : Host.Outcome State Fault Refusal) : Bool := nextIs o fun _ => true

/-- The outcome is a fault for this reason. -/
def faultIs (o : Host.Outcome State Fault Refusal) (f : Fault) : Bool :=
  match o with
  | .next _ => false
  | .fault g => decide (g = f)
  | .refused _ => false

/-- The `n` bytes from `a` on. -/
def bytesAt (s : State) (a n : Nat) : List (Option Byte) :=
  (List.range n).map fun k => Memory.read s.mem (a + k)

/-- Poison as read. -/
def ee (n : Nat) : List (Option Byte) := List.replicate n (some 0xEE)

/-! ### One step of each instruction -/

/-- Vector L7: `EA = 1007` stores lane 1 at 1004 and leaves the neighbours (S5). -/
theorem test_stvewx_lane :
    nextIs (step (loaded 7 0x7C23218E)) (fun t =>
      decide (bytesAt t 0xFFC 24 =
        ee 8 ++ [some 0x44, some 0x55, some 0x66, some 0x77] ++ ee 12) &&
      decide (t.cur.pc = 0x10004)) = true := by decide

/-- Vector A1: `RA = 0` is the literal zero and `r0` is not read. -/
theorem test_stvewx_literal_zero_base :
    nextIs (step (loaded 0x200D 0x7C20218E)) (fun t =>
      decide (bytesAt t 0x200C 4 = [some 0xCC, some 0xDD, some 0xEE, some 0xFF])) = true := by
  decide

/-- Vector W1: the 7-bit register number. -/
theorem test_stvewx128_high_register :
    nextIs (step (loaded 7 0x1083218F)) (fun t =>
      decide (bytesAt t 0x1000 12 =
        ee 4 ++ [some 0x44, some 0x55, some 0x66, some 0x77] ++ ee 4)) = true := by decide

/-- Vector W5: `v32`, not `v0`. -/
theorem test_stvewx128_keeps_the_high_field :
    nextIs (step (loaded 0 0x10032187)) (fun t =>
      decide (bytesAt t 0x1000 4 = [some 0x00, some 0x11, some 0x22, some 0x33])) = true := by
  decide

/-! ### Witnesses: encoding -/

/-- `DecodeOfEncodeIsTheInstruction`, at the largest operands of each. -/
theorem test_witness_round_trip :
    (Instr.stvewx 31 31 31).WellFormed ∧ (Instr.stvewx128 127 31 31).WellFormed := by decide

/-- `EncodeOfDecodeIsTheWord`, `VectorRegisterNumberFromItsFields`: a word of each (E5, E12). -/
theorem test_witness_decoded :
    decodeWord 0x7FFFF98E#32 = .ok (.stvewx 31 31 31) ∧
    decodeWord 0x13FFF98F#32 = .ok (.stvewx128 127 31 31) ∧ (31 : VrName).toNat < 32 := by
  exact ⟨rfl, rfl, by decide⟩

/-- `ReservedPatternsAreRejectedByName`: X1 with all operand bits set; X4 and X6. -/
theorem test_witness_reserved_patterns :
    ((0x7FFFF98F#32).extractLsb' 26 6 = 31 ∧ (0x7FFFF98F#32).extractLsb' 1 10 = 199 ∧
      (0x7FFFF98F#32).extractLsb' 0 1 = 1) ∧
    ((0x10000180#32).extractLsb' 26 6 = 4 ∧ (0x10000180#32).extractLsb' 4 7 = 24 ∧
      (0x10000180#32).extractLsb' 0 2 ≠ 3) ∧
    ((0x13FFF98E#32).extractLsb' 26 6 = 4 ∧ (0x13FFF98E#32).extractLsb' 4 7 = 24 ∧
      (0x13FFF98E#32).extractLsb' 0 2 ≠ 3) := by simp

/-! ### Witnesses: operands and memory -/

/-- `BaseOperandIsZeroOrTheRegister`: register fields that are not 0. -/
theorem test_witness_register_fields : (1 : GprName) ≠ 0 ∧ (31 : GprName) ≠ 0 := by decide

/-- The statements about a store that answers a next state (`EffectiveAddressOfBothInstructions`,
`DataAccessIsAlwaysAligned`,
`LaneAndStoredWord`, `StoresExactlyFourBytes`, `StatusRegistersAreNeitherReadNorWritten`,
`ElementStoreFrame`, `StoreCopiesOneWordOfTheBlockImage`): each instruction does here. -/
theorem test_witness_store_completes :
    isNext (exec (.stvewx 1 3 4) (machine 7)) = true ∧
    isNext (exec (.stvewx128 100 0 4) (machine 0xFFFFFFFF)) = true := by decide

/-- `LaneAndStoredWord`: addresses that differ in bits 1:0, in bits 31:4, and registers that differ
outside lane 1. -/
theorem test_witness_lanes :
    (0x1004#32).toNat / 4 = (0x1007#32).toNat / 4 ∧
    (0x1004#32).toNat % 16 = (0xFFFFFF04#32).toNat % 16 ∧
    (∀ k < 4, (bytesV.set 0 1)[4 * (1#2).toNat + k]? = bytesV[4 * (1#2).toNat + k]?) := by decide

/-- `UpperRegisterHalvesDoNotMatter`: `x[3]` with another upper half. -/
theorem test_witness_upper_halves :
    ∀ r : Fin 32, (((machine 7).cur.gpr.set 3 0x100001000)[r]).setWidth 32 =
      ((machine 7).cur.gpr[r]).setWidth 32 := by decide

/-- `MemWriteIsBigEndian`: the last word of the space, and four bytes that have values. -/
theorem test_witness_memory :
    (0xFFFFFFFC#32).toNat % 4 = 0 ∧ (0x1000#32).toNat % 4 = 0 ∧
    bytesAt (machine 0) 0x1000 4 = ee 4 := by decide

/-- `DataAccessIsAlwaysAligned`: two instructions with one register whose addresses differ in the
low bits alone, and a fault of each kind. -/
theorem test_witness_alignment :
    (instrEA (.stvewx 1 3 4) (thread 0 7)).toNat / 4 =
      (instrEA (.stvewx128 1 3 5) (thread 0 7)).toNat / 4 ∧
    instrEA (.stvewx 1 3 4) (thread 0 7) ≠ instrEA (.stvewx128 1 3 5) (thread 0 7) ∧
    faultIs (exec (.stvewx 1 3 4)
      ((machine 7).setCur ((thread 0 7).setPc 0xFFFFFFFC))) (.pcOverflow 0xFFFFFFFC) = true := by
  decide

/-- A platform with program text at 0x1004 and a device at 0x2000. -/
def guarded : Platform :=
  { Platform.reset with
    map := [⟨0, 0x100000000, .memory, true, true⟩, ⟨0x2000, 16, .device, true, false⟩]
    text := [⟨0x1004, 4⟩] }

/-- `TextAndDevicesAreNotAdmittedForWrite`: each clause at a boundary; just before the text a store is
admitted. -/
theorem test_witness_not_admitted :
    guarded.inText (0x1001 + 3) = true ∧ guarded.inText (0x1007 + 0) = true ∧
    guarded.inText 0x1008 = false ∧ guarded.inDevice (0x1FFD + 3) = true ∧
    guarded.inDevice 0x2010 = false ∧ 2 ^ 32 ≤ 0xFFFFFFFD + 3 ∧
    guarded.admits 0x1000 4 .write = true := by decide

/-! ### Witnesses: the instructions -/

/-- `StvewxStoresItsLane`, `Stvewx128StoresItsLane`: the last `pc` that may complete and the last
word of the space (vectors F6, A7). The reservation clauses have their witnesses below. -/
theorem test_witness_complete :
    let s := (machine 0xFFFFFFFF).setCur ((thread 0 0xFFFFFFFF).setPc 0xFFFFFFF8)
    s.cur.pc.toNat + 4 < 2 ^ 32 ∧
    (∀ k < 4, s.platform.admitsByte ((instrAddress (.stvewx 1 0 4) s.cur).toNat + k) .write = true)
      ∧ (instrAddress (.stvewx 1 0 4) s.cur) = 0xFFFFFFFC := by decide

/-- `FourStoresSpillTheRegister`: four stores of `v1` to one block, out of order and by both
instructions (program P1). -/
theorem test_witness_spill :
    let s := machine 0
    let is : List Instr := [.stvewx 1 3 6, .stvewx128 1 3 4, .stvewx 1 3 7, .stvewx128 1 3 5]
    0x1000 % 16 = 0 ∧ (∀ i ∈ is, instrVs i = 1) ∧
    (is.map fun i => (instrAddress i s.cur).toNat).Perm
      [0x1000, 0x1000 + 4, 0x1000 + 8, 0x1000 + 12] ∧
    s.cur.pc.toNat + 16 < 2 ^ 32 ∧
    ∀ j < 16, s.platform.admitsByte (0x1000 + j) .write = true := by decide

/-- `ReservationsAfterAStore`, `OtherAgentsLoseTheirReservations`: another agent's
reservation on the word goes (K1); those on the words beside it stay (K2, at the boundary). -/
theorem test_witness_reservations :
    nextIs (exec (.stvewx 1 3 4) (reserved 9 [⟨1, 0x1004⟩, ⟨1, 0x1008⟩, ⟨1, 0x100C⟩]))
      (fun t => decide (t.reservations = [⟨1, 0x1004⟩, ⟨1, 0x100C⟩])) = true := by decide

/-- `OtherAgentsLoseTheirReservations`: an agent all of whose reservations lie beside the word keeps
them (its second clause, at both boundaries). -/
theorem test_witness_reservations_beside :
    let s := reserved 9 [⟨1, 0x1004⟩, ⟨1, 0x100C⟩]
    isNext (exec (.stvewx 1 3 4) s) = true ∧ 1 ≠ s.cur.id ∧
    ∀ r ∈ s.reservations, r.agent = 1 →
      r.granule + 4 * 2 ^ s.platform.granuleExp ≤ (instrAddress (.stvewx 1 3 4) s.cur).toNat ∨
        (instrAddress (.stvewx 1 3 4) s.cur).toNat + 4 ≤ r.granule := by decide

/-- `ReservationsAfterAStore`: the clause about the storing thread's own reservation (K4). -/
theorem test_witness_own_reservation :
    let s := reserved 9 [⟨0, 0x1008⟩]
    isNext (exec (.stvewx 1 3 4) s) = true ∧
    (0x1008 < (instrAddress (.stvewx 1 3 4) s.cur).toNat + 4 ∧
      (instrAddress (.stvewx 1 3 4) s.cur).toNat < 0x1008 + 4 * 2 ^ s.platform.granuleExp) ∧
    s.cur.id = 0 ∧ (⟨0, 0x1008⟩ : Reservation) ∈ s.reservations := by decide

/-- `StopsOfAStore`: vector F4, the aligned address is named; vector F3, `PcOverflow` first. -/
theorem test_witness_faults :
    faultIs (exec (.stvewx 1 3 4) ((machine 7).setPlatform guarded))
      (.storageFault 0x1004 .write) = true ∧
    faultIs (exec (.stvewx128 1 3 4) (((machine 7).setPlatform guarded).setCur
      ((thread 0 7).setPc 0xFFFFFFFC))) (.pcOverflow 0xFFFFFFFC) = true := by decide

/-- `OwnStoresAreSeenInProgramOrder`, `StoresAreOrderedPerLocationOnly`: two stores after each other,
to one word and to two words. -/
theorem test_witness_two_stores :
    let two (j : Instr) := nextIs (exec (.stvewx 1 3 4) (machine 7)) fun t => isNext (exec j t)
    two (.stvewx128 100 3 4) = true ∧ two (.stvewx 1 3 6) = true ∧
    instrAddress (.stvewx 1 3 4) (thread 0 7) = instrAddress (.stvewx128 100 3 4) (thread 0 7) ∧
    instrAddress (.stvewx 1 3 4) (thread 0 7) ≠ instrAddress (.stvewx 1 3 6) (thread 0 7) := by
  decide

/-- `OtherAgentsMaySeePartOfAStore`, `AtomicStoresAreSeenWhole`: a store on a platform of each kind,
and another agent. -/
theorem test_witness_visibility :
    (machine 7).platform.wordStoreAtomic = false ∧
    isNext (exec (.stvewx 1 3 4) (machine 7)) = true ∧
    isNext (exec (.stvewx 1 3 4)
      ((machine 7).setPlatform { Platform.reset with wordStoreAtomic := true })) = true ∧
    1 ≠ (machine 7).cur.id := by decide

/-! ### Witnesses: the machine -/

/-- `StepRunsTheDecodedInstruction`: the bytes of vector E2 at `pc`. -/
theorem test_witness_step :
    let s := loaded 7 0x7C23218E
    s.cur.mark = none ∧ s.cur.pc ≠ s.platform.endAddr ∧ s.cur.pc.toNat % 4 = 0 ∧
    s.platform.admits s.cur.pc.toNat 4 .fetch = true ∧
    (List.range 4).map (fun k => Memory.byte s.mem (s.cur.pc.toNat + k)) = [0x7C, 0x23, 0x21, 0x8E] ∧
    decode [0x7C, 0x23, 0x21, 0x8E] = .ok (.stvewx 1 3 4, []) ∧ s.others = [] := by
  exact ⟨by decide, by decide, by decide, by decide, by decide, rfl, by decide⟩

/-- The premises that `FetchAndDecodeStops`, `StopsAreThoseOfTheSpec` and `ChecksOfAStepInOrder`
share, as a Bool. -/
def startable (s : State) : Bool :=
  decide (s.others = []) && decide (s.cur.mark = none) && decide (s.cur.pc ≠ s.platform.endAddr)

/-- A machine at a `pc` with a platform whose map is given and whose `END` is far. -/
def at_ (pc : Addr) (map : List Region) : State :=
  ((machine 7).setCur ((thread 0 7).setPc pc)).setPlatform
    { Platform.reset with map := map, endAddr := 0xFFFFFFFC }

/-- `FetchAndDecodeStops`, `ChecksOfAStepInOrder`: vectors F1 and F2. -/
theorem test_witness_fetch_stops :
    (startable (at_ 0x10000 []) = true ∧ (0x10000#32).toNat % 4 = 0 ∧
      (at_ 0x10000 []).platform.admits 0x10000 4 .fetch = false) ∧
    let s := loaded 7 0x7C00018F
    startable s = true ∧ s.platform.admits s.cur.pc.toNat 4 .fetch = true ∧
      Memory.readWord s.mem s.cur.pc = 0x7C00018F#32 ∧
      decodeTableWord 32 0x7C00018F = none := by decide

/-- `StopsAreThoseOfTheSpec`: a misaligned `pc`. -/
theorem test_witness_own_stop :
    startable (at_ 0x10001 Platform.reset.map) = true ∧ (0x10001#32).toNat % 4 ≠ 0 := by decide

/-- A word that nothing has loaded is fetched: it holds what the launch left there (R17, U10). -/
theorem test_unloaded_word_is_fetched :
    let s := at_ 0x10000 Platform.reset.map
    Memory.read s.mem 0x10000 = none ∧
      fetchWord s = .ok (wordOfBytes (Config.launchByte 0x10000) (Config.launchByte 0x10001)
        (Config.launchByte 0x10002) (Config.launchByte 0x10003)) := by
  exact ⟨by decide, rfl⟩

/-- `HaltedThreadTakesNoStep`, `EndOfTheRunIsForGood`: with no program loaded the thread has
finished; a thread can be marked. -/
theorem test_witness_halted :
    State.reset.cur.pc = State.reset.platform.endAddr ∧ State.reset.runOver = true ∧
    ((State.reset.setCur ((Thread.reset 0).setMark
      (some (.faulted (.pcOverflow 0xFFFFFFFC))))).cur.mark.isSome = true) := by decide

/-- The state of vector F3, its fetch too: `pc = FFFFFFFC` at a word in scope, `END` elsewhere. -/
def atTop (others : List Thread) : State :=
  { (((machine 7).setCur ((thread 0 7).setPc 0xFFFFFFFC)).withFetchWord 32 0x7C23218E) with
    others := others }

/-- `StopOfOneThreadMarksItAlone`: a thread that faults, alone and beside a live one. -/
theorem test_witness_fault_of_one :
    faultIs (threadStep (atTop [])) (.pcOverflow 0xFFFFFFFC) = true ∧
    faultIs (threadStep (atTop [(thread 1 7).setPc 0x20000])) (.pcOverflow 0xFFFFFFFC) = true ∧
    (atTop []).halted (atTop []).cur = false ∧ (atTop []).othersLive = false ∧
    (atTop [(thread 1 7).setPc 0x20000]).othersLive = true := by decide

/-- The outcome is a refusal for this reason. -/
def refusedIs (o : Host.Outcome State Fault Refusal) (r : Refusal) : Bool :=
  match o with
  | .next _ => false
  | .fault _ => false
  | .refused q => decide (q = r)

/-- `StopsAreThoseOfTheSpec`, `ChecksOfAStepInOrder`: the stops of R62 reached by a step, at an aligned
`pc`: vectors F1, F3 and F2. -/
theorem test_witness_step_stops :
    faultIs (step (at_ 0x10000 [])) (.storageFault 0x10000 .fetch) = true ∧
    faultIs (step (atTop [])) (.pcOverflow 0xFFFFFFFC) = true ∧ startable (atTop []) = true ∧
    refusedIs (step (loaded 7 0x7C00018F)) (.refusedWord 0x10000 0x7C00018F) = true := by decide

/-- `StopOfOneThreadMarksItAlone`: a thread that is refused (vector F2), alone and beside a live
one. -/
theorem test_witness_refusal_of_one :
    refusedIs (threadStep (loaded 7 0x7C00018F)) (.refusedWord 0x10000 0x7C00018F) = true ∧
    refusedIs (threadStep (twoThreads 0x7C00018F)) (.refusedWord 0x10000 0x7C00018F) = true ∧
    (loaded 7 0x7C00018F).halted (loaded 7 0x7C00018F).cur = false ∧
    (loaded 7 0x7C00018F).othersLive = false ∧ (twoThreads 0x7C00018F).othersLive = true := by
  decide

/-- `StopsAreThoseOfTheSpec`, `ChecksOfAStepInOrder`, `ProgramIsNeverRefused`: a program word at
0x10000 whose store goes to the word itself: `x[4]` is its address (P4). -/
theorem test_witness_program_fault :
    faultIs (step (loaded 0x10003 0x7C20218E)) (.storageFault 0x10000 .write) = true := by decide

/-- `StepKeepsTheInvariant`, `UnadmittedBytesNeverChange`, `NoStepWritesARegister`,
`NoStepMakesAReservation`: a step of a machine of two threads that meets the invariant, and a byte
(of the program text) that is not admitted for write. -/
theorem test_witness_invariant :
    (twoThreads 0x7C23218E).Inv ∧ isNext (step (twoThreads 0x7C23218E)) = true ∧
    (twoThreads 0x7C23218E).platform.admitsByte 0x10000 .write = false := by
  refine ⟨⟨by decide, ⟨by decide, fun r hr => absurd hr (List.not_mem_nil)⟩, by decide, by decide,
    by decide⟩, by decide, by decide⟩

/-- `MemoryChangesOnlyWhereTheInstructionStores`: a step that changes the byte at 0x1004. -/
theorem test_witness_change :
    nextIs (step (loaded 7 0x7C23218E)) (fun t =>
      decide (Memory.read t.mem 0x1004 ≠ Memory.read (loaded 7 0x7C23218E).mem 0x1004)) = true := by
  decide

/-- The only aligned address from 0x10000 up to 0x10004. -/
theorem only_word {p : Addr} (h1 : (0x10000#32).toNat ≤ p.toNat)
    (h2 : p.toNat < (0x10004#32).toNat) (h3 : p.toNat % 4 = 0) : p = 0x10000#32 := by
  refine BitVec.eq_of_toNat_eq ?_
  simp only [BitVec.toNat_ofNat] at h1 h2 ⊢
  omega

theorem loaded_holds : (loaded 7 0x7C23218E).holdsProgram 0x10000#32 0x10004#32 := by
  intro p h1 h2 h3
  obtain rfl := only_word h1 h2 h3
  exact ⟨by decide, by decide, .stvewx 1 3 4, rfl⟩

/-- `LaunchIsOnProgram`, `ProgramIsNeverRefused`: a launch with a program of one word. -/
theorem test_witness_launch : (loaded 7 0x7C23218E).LaunchPremises :=
  ⟨by decide, by decide, by decide, by decide, loaded_holds⟩

/-- `StraightLineRunComesToAGoodEnd`, `ProgramIsNeverRefused`: a run of one word to its end. -/
theorem test_witness_run :
    let s := loaded 7 0x7C23218E
    s.others = [] ∧ s.cur.mark = none ∧ s.OnProgram ∧
    s.cur.pc.toNat + 4 * 1 = s.platform.endAddr.toNat ∧
    ∀ p i, s.cur.pc.toNat ≤ p.toNat → p.toNat < s.platform.endAddr.toNat → p.toNat % 4 = 0 →
      decodeWord (Memory.readWord s.mem p) = .ok i →
      s.platform.admits (instrAddress i s.cur).toNat 4 .write = true := by
  refine ⟨rfl, rfl, ⟨by decide, fun t ht => ?_⟩, by decide, fun p i h1 h2 h3 hd => ?_⟩
  · obtain rfl := List.mem_singleton.1 ht
    exact ⟨by decide, by decide, loaded_holds⟩
  · obtain rfl := only_word h1 h2 h3
    obtain rfl : Instr.stvewx 1 3 4 = i :=
      Except.ok.inj ((rfl : _ = decodeWord (Memory.readWord _ 0x10000#32)).trans hd)
    decide

/-- `LoadedInstructionIsTheNextOne`: from the reset state. -/
theorem test_witness_load :
    (Instr.stvewx 1 3 4).WellFormed ∧ State.reset.cur.pc.toNat % 4 = 0 := by decide

/-- Vector K3 and the fixed interface: after reset a loaded word is the first instruction to run. -/
theorem test_first_instruction_after_reset :
    isNext (step (State.reset.withFetchWord 32 0x7C00018E)) = true ∧
    isNext (step (State.reset.withFetchWord 32 0x10000183)) = true := by decide

end Sys2Proof.Tests
end

section
/-! PROOF. The statements of the family 10_state.md: what every step keeps of the state, and what no
instruction reads of it. -/

namespace Sys2Proof.Machine

/-! ### Each update of the state keeps the invariant -/

/-- A multiple of 4 stays one, the wrap at the top of the space included. -/
theorem toNat_add_four_aligned {a : Addr} (h : a.toNat % 4 = 0) : (a + 4).toNat % 4 = 0 := by
  bv_omega

theorem State.Inv.setCur {s : State} (h : s.Inv) {u : Thread} (hpc : u.pc.toNat % 4 = 0)
    (hid : u.id = s.cur.id) : (s.setCur u).Inv := by
  obtain ⟨hmem, hres, hpcs, hids, hst⟩ := h
  refine ⟨hmem, hres, fun t ht => ?_, ?_, hst⟩
  · rcases List.mem_cons.1 ht with rfl | ht
    · exact hpc
    · exact hpcs t (List.mem_cons_of_mem _ ht)
  · simpa [State.threads, hid] using hids

theorem State.Inv.passTurn {s : State} (h : s.Inv) : s.passTurn.Inv := by
  obtain ⟨hmem, hres, hpcs, hids, hst⟩ := h
  have hp := s.passTurn_perm
  exact ⟨by simpa using hmem, by simpa using hres, fun t ht => hpcs t (hp.mem_iff.1 ht),
    (hp.map Thread.id).nodup_iff.2 hids, by simpa using hst⟩

theorem State.Inv.killReservations {s : State} (h : s.Inv) (a : Addr) (n : Nat) :
    (s.killReservations a n).Inv := by
  obtain ⟨hmem, ⟨hord, hgran⟩, hpcs, hids, hst⟩ := h
  exact ⟨hmem, ⟨hord.filter _, fun r hr => hgran r (List.mem_of_mem_filter hr)⟩, hpcs, hids, hst⟩

theorem State.Inv.storeWord {s : State} (h : s.Inv) {a : Addr} (ha : a.toNat % 4 = 0) (w : Word) :
    (s.storeWord a w).Inv := by
  obtain ⟨hmem, hres, hpcs, hids, hst⟩ := h
  exact ⟨Memory.wf_writeWord hmem a w, hres, hpcs, hids, List.forall_mem_cons.2 ⟨ha, hst⟩⟩

theorem State.Inv.cur_pc {s : State} (h : s.Inv) : s.cur.pc.toNat % 4 = 0 := by
  obtain ⟨-, -, hpcs, -, -⟩ := h
  exact hpcs s.cur (List.mem_cons_self ..)

/-- The store of either instruction, whatever its operands. -/
theorem State.Inv.stored {s : State} (h : s.Inv) (i : Instr) : (stored i s).Inv :=
  ((h.killReservations _ 4).storeWord (instrAddress_aligned i s.cur) _).setCur
    (toNat_add_four_aligned h.cur_pc) rfl

theorem State.Inv.stopThread {s : State} (h : s.Inv) (k : Stop) : (s.stopThread k).Inv :=
  (h.setCur (u := s.cur.setMark (some k)) h.cur_pc rfl).passTurn

/-- Settles O35: a thread that stands still, stores or stops keeps the invariant (`step_next`), and
so does the passing of the turn. -/
theorem stepKeepsTheInvariant : Obligations.StepKeepsTheInvariant := by
  intro s t hs h
  rcases step_next h with ⟨-, rfl⟩ | ⟨-, _, i, -, -, -, rfl⟩ | ⟨-, -, k, rfl⟩
  · exact hs.passTurn
  · exact (hs.stored i).passTurn
  · exact hs.stopThread k

/-! ### What an instruction does not read of its thread -/

/-- The checks of R64 in their order, and the state that is answered where none fails. -/
theorem exec_eq (i : Instr) (s : State) :
    exec i s =
      if pcAtTop s.cur.pc then .fault (.pcOverflow s.cur.pc)
      else if s.platform.admits (instrAddress i s.cur).toNat 4 .write then .next (stored i s)
      else .fault (.storageFault (instrAddress i s.cur) .write) := by
  cases i <;> rfl

/-- A change of the thread at the turn that an instruction neither sees (in number, `pc`, address
and word) nor undoes may be made before the instruction or after it. -/
theorem exec_setCur {i : Instr} {s : State} {f : Thread → Thread} (hid : (f s.cur).id = s.cur.id)
    (hpc : (f s.cur).pc = s.cur.pc) (hea : instrAddress i (f s.cur) = instrAddress i s.cur)
    (hw : instrWord i (f s.cur) = instrWord i s.cur)
    (hend : (f s.cur).complete = f s.cur.complete) :
    exec i (s.setCur (f s.cur)) = onNext (fun t => t.setCur (f t.cur)) (exec i s) := by
  have hst : stored i (s.setCur (f s.cur)) = (stored i s).setCur (f (stored i s).cur) := by
    simp [stored, State.killReservations, State.storeWord, State.setCur, hid, hea, hw, hend]
  rw [exec_eq, exec_eq, hst]
  simp only [State.setCur_cur, State.setCur_platform, hpc, hea]
  split_ifs <;> rfl

/-- The effective address is a sum of the low halves of two registers (R9, R19, R51). -/
theorem effectiveAddress_congr {t u : Thread}
    (h : ∀ r, trunc32 (readGpr u r) = trunc32 (readGpr t r)) (ra rb : GprName) :
    effectiveAddress u ra rb = effectiveAddress t ra rb := by
  have hbase : trunc32 (readRA0 u ra) = trunc32 (readRA0 t ra) := by
    unfold readRA0
    split
    · rfl
    · exact h ra
  have hadd (x y : Dword) : trunc32 (x + y) = trunc32 x + trunc32 y :=
    BitVec.setWidth_add x y (by decide)
  rw [effectiveAddress, effectiveAddress, hadd, hadd, hbase, h rb]

theorem instrAddress_congr {i : Instr} {t u : Thread} (h : instrEA i u = instrEA i t) :
    instrAddress i u = instrAddress i t :=
  congrArg alignWord h

theorem instrWord_congr {i : Instr} {t u : Thread} (hvr : u.vr = t.vr)
    (h : instrEA i u = instrEA i t) : instrWord i u = instrWord i t :=
  congrArg₂ laneWord (by simp only [readVr, hvr]) (congrArg laneSlot h)

/-- Settles O10: the general registers enter an instruction through its effective address alone, and
that takes their low halves. -/
theorem upperRegisterHalvesDoNotMatter : Obligations.UpperRegisterHalvesDoNotMatter := by
  intro i s g h
  have hlow (r : GprName) :
      trunc32 (readGpr { s.cur with gpr := g } r) = trunc32 (readGpr s.cur r) :=
    h ⟨r.toNat, r.isLt⟩
  have hea : instrEA i { s.cur with gpr := g } = instrEA i s.cur := effectiveAddress_congr hlow _ _
  exact exec_setCur (f := fun t => { t with gpr := g }) rfl rfl (instrAddress_congr hea)
    (instrWord_congr rfl hea) rfl

/-- Settles O17: nothing that an instruction reads of its thread is in CR, XER or a floating-point
register, and the end of an instruction changes `pc` alone. -/
theorem statusRegistersAreNeitherReadNorWritten :
    Obligations.StatusRegistersAreNeitherReadNorWritten := by
  intro i s cr xer fpr
  refine ⟨exec_setCur (f := fun t => { t with cr := cr, xer := xer, fpr := fpr })
    rfl rfl rfl rfl rfl, fun t h => ?_⟩
  obtain ⟨rfl, -, -⟩ := exec_next h
  exact ⟨rfl, rfl, rfl⟩

/-! ### The reservation table and the reset state -/

/-- Settles O40: a store filters the table, and nothing else in a step touches it. -/
theorem noStepMakesAReservation : Obligations.NoStepMakesAReservation := by
  intro s t h
  rcases step_next h with ⟨-, rfl⟩ | ⟨-, _, i, -, -, -, rfl⟩ | ⟨-, -, k, rfl⟩
  · simp
  · simp only [State.passTurn_reservations, stored_reservations]
    exact List.filter_sublist
  · simp

/-- Settles O36: one thread at an aligned `ENTRY`, and nothing in memory or in either table. -/
theorem resetMeetsTheInvariant : Obligations.ResetMeetsTheInvariant := by
  refine ⟨by decide, ⟨.nil, fun r hr => ?_⟩, by decide, by decide, by decide⟩
  exact absurd hr List.not_mem_nil

/-- Settles O37: every register is read out of a vector of zeros. -/
theorem resetState : Obligations.ResetState := by
  refine ⟨rfl, rfl, fun r => ?_, fun v => ?_, rfl, rfl, rfl⟩
  · exact Vector.getElem_replicate r.isLt
  · exact Vector.getElem_replicate v.isLt

end Sys2Proof.Machine
end

section
/-! PROOF. The statements of the family 20_memory.md: where a store puts its bytes, which
reservations it takes away, what agents may see of it, and that no step writes anywhere else. -/

namespace Sys2Proof.Machine

/-! ### Memory (R22) -/

/-- A word written at a multiple of 4 reads back. -/
theorem Memory.readWord_writeWord (m : Memory) {a : Addr} (h : a.toNat % 4 = 0) (w : Word) :
    Memory.readWord (Memory.writeWord m a w) a = w := by
  rw [Memory.readWord_eq _ h]
  simp only [Memory.byte, Memory.read_writeWord m h]
  simpa using wordOfBytes_extract w

/-- Settles O11: every read after the write is `Memory.read_writeWord`. -/
theorem memWriteIsBigEndian : Obligations.MemWriteIsBigEndian := by
  refine ⟨fun m a w ha => ?_, fun w => ⟨?_, ?_⟩, fun m a ha => Memory.readWord_eq m ha,
    fun m a b => Memory.byte_of_read⟩
  · have hr := Memory.read_writeWord m ha w
    have hlt := a.isLt
    refine ⟨by omega, ?_, ?_, ?_, ?_, fun x => Memory.read_writeWord_other m ha w,
      Memory.readWord_writeWord m ha w⟩ <;> simp [hr]
  · exact BitVec.extractLsb'_append_extractLsb'_eq_extractLsb' rfl
  · exact BitVec.extractLsb'_append_extractLsb'_eq_extractLsb' rfl

/-! ### The access (R23, R25) -/

/-- Four bytes at a multiple of 4 cross no boundary of a power of two from 4 up. -/
theorem aligned_add_div_two_pow {a k n : Nat} (ha : a % 4 = 0) (hk : k < 4) (hn : 2 ≤ n) :
    (a + k) / 2 ^ n = a / 2 ^ n := by
  have hpow : 2 ^ n = 4 * 2 ^ (n - 2) := by
    rw [show 4 = 2 ^ 2 by rfl, ← Nat.pow_add, Nat.add_sub_cancel' hn]
  rw [hpow, ← Nat.div_div_eq_div_mul, ← Nat.div_div_eq_div_mul,
    show (a + k) / 4 = a / 4 by omega]

/-- The lane and the aligned address do not depend on bits 1:0 of `EA` (R51, R52). -/
theorem laneSlot_alignWord_congr {a b : Addr} (h : a.toNat / 4 = b.toNat / 4) :
    laneSlot a = laneSlot b ∧ alignWord a = alignWord b := by
  refine ⟨BitVec.eq_of_toNat_eq ?_, BitVec.eq_of_toNat_eq ?_⟩
  · rw [laneSlot_toNat, laneSlot_toNat]; omega
  · rw [alignWord_toNat, alignWord_toNat, h]

/-- An instruction enters its outcome through its address and its word alone. -/
theorem exec_congr {i j : Instr} {s : State} (hea : instrAddress j s.cur = instrAddress i s.cur)
    (hw : instrWord j s.cur = instrWord i s.cur) : exec j s = exec i s := by
  simp only [exec_eq, stored, hea, hw]

/-- The faults of an instruction (R62); none of them is about alignment. -/
theorem exec_fault {i : Instr} {s : State} {f : Fault} (h : exec i s = .fault f) :
    f = .pcOverflow s.cur.pc ∨ f = .storageFault (instrAddress i s.cur) .write := by
  rcases exec_cases i s with ⟨-, e⟩ | ⟨-, -, e⟩ | ⟨-, -, e⟩ <;> rw [e] at h <;> cases h
  · exact .inl rfl
  · exact .inr rfl

/-- Settles O12: the address is a multiple of 4 whatever `EA` is, and `EA[1:0]` enters neither the
lane nor the address. -/
theorem dataAccessIsAlwaysAligned : Obligations.DataAccessIsAlwaysAligned := by
  intro i s
  have hal := instrAddress_aligned i s.cur
  have hlt := (instrAddress i s.cur).isLt
  refine ⟨instrAddress_toNat i s.cur, by omega,
    fun n hn k hk => aligned_add_div_two_pow hal hk hn, fun t a h ha => ?_, fun f => exec_fault,
    by rw [laneSlot_toNat]; omega, fun j hvs hEA => ?_⟩
  · obtain ⟨rfl, -, -⟩ := exec_next h
    exact read_stored_other i s ha
  · obtain ⟨hslot, haddr⟩ := laneSlot_alignWord_congr hEA
    exact exec_congr haddr (congrArg₂ laneWord (congrArg (readVr s.cur) hvs) hslot)

/-- An instruction completes on one memory exactly as on any other (R25). -/
theorem exec_setMem {i : Instr} {s t : State} (h : exec i s = .next t) (m : Memory) :
    exec i (s.setMem m) = .next (stored i (s.setMem m)) := by
  obtain ⟨-, hpc, hadm⟩ := exec_next h
  rw [exec_eq]
  simp [hpc, hadm]

/-- Settles O16: what a store leaves in memory is the lane at `ea` and the old bytes elsewhere
(`read_stored`, `read_stored_other`), whatever memory held. -/
theorem storesExactlyFourBytes : Obligations.StoresExactlyFourBytes := by
  intro i s t h
  obtain ⟨rfl, -, -⟩ := exec_next h
  refine ⟨instrAddress_toNat i s.cur, fun k => read_stored i s, fun a => read_stored_other i s,
    fun m => ⟨stored i (s.setMem m), exec_setMem h m, rfl, rfl, rfl, fun k hk => ?_,
      fun a => read_stored_other i (s.setMem m)⟩⟩
  exact (read_stored i (s.setMem m) hk).trans (read_stored i s hk).symm

/-! ### Reservations (R33) -/

theorem Platform.granule_pos (p : Platform) : 0 < p.granule :=
  Nat.mul_pos (by decide) (Nat.two_pow_pos _)

/-- The reservations that outlive a store: those it does not overlap, and the storing thread's own
where the free value keeps it (log 10). -/
theorem mem_stored_reservations (i : Instr) (s : State) (r : Reservation) :
    r ∈ (stored i s).reservations ↔ r ∈ s.reservations ∧
      (¬(r.granule < (instrAddress i s.cur).toNat + 4 ∧
        (instrAddress i s.cur).toNat < r.granule + s.platform.granule) ∨
      r.agent = s.cur.id ∧ Config.keepOwnReservation s.draws = true) := by
  rw [stored_reservations, List.mem_filter, ← Reservation.hit_four s.platform.granule_pos]
  simp [Reservation.survives]

/-- Settles O22, from which reservations a store leaves in the table. -/
theorem reservationsAfterAStore : Obligations.ReservationsAfterAStore := by
  intro i s t h r ea overlaps
  obtain ⟨rfl, -, -⟩ := exec_next h
  have hmem : r ∈ (stored i s).reservations ↔ r ∈ s.reservations ∧
      (¬overlaps ∨ r.agent = s.cur.id ∧ Config.keepOwnReservation s.draws = true) :=
    mem_stored_reservations i s r
  rw [hmem]
  tauto

theorem State.holdsReservation_iff (s : State) (agent a : Nat) :
    s.holdsReservation agent a = true ↔ ∃ r ∈ s.reservations, r.agent = agent ∧
      r.granule ≤ a ∧ a < r.granule + s.platform.granule := by
  simp [State.holdsReservation, Reservation.covers]

/-- Settles O23: a reservation that covers one of the four bytes overlaps them, and no other agent's
such reservation outlives the store; one that does not overlap them does. -/
theorem otherAgentsLoseTheirReservations : Obligations.OtherAgentsLoseTheirReservations := by
  intro i s t agent h hagent
  obtain ⟨rfl, -, -⟩ := exec_next h
  refine ⟨fun k hk => ?_, fun a hbeside => ?_⟩
  · rw [← Bool.not_eq_true, State.holdsReservation_iff]
    rintro ⟨r, hr, rfl, hlo, hhi⟩
    obtain ⟨-, hclear | ⟨hown, -⟩⟩ := (mem_stored_reservations i s r).1 hr
    · rw [stored_platform] at hhi
      omega
    · exact hagent hown
  · rw [Bool.eq_iff_iff, State.holdsReservation_iff, State.holdsReservation_iff]
    refine exists_congr fun r => ?_
    rw [mem_stored_reservations, stored_platform, and_assoc]
    refine and_congr_right fun hr => ?_
    refine ⟨And.right, fun hc => ⟨.inl ?_, hc⟩⟩
    have := hbeside r hr hc.1
    rw [← Platform.granule] at this
    omega

/-! ### What agents see of the stores (R26, R30, R31) -/

/-- Four bytes are the same vector where each of the four is. -/
theorem vector4_eq_iff {v u : Vector Byte 4} : v = u ↔ ∀ k : Fin 4, v[k] = u[k] :=
  ⟨fun h k => by rw [h], fun h => Vector.ext fun k hk => h ⟨k, hk⟩⟩

/-- What memory holds may be seen by every agent. -/
theorem State.mem_visibleWords_latest (s : State) (agent : Nat) (a : Addr) :
    launchFill a (Memory.wordBytes s.mem a) ∈ s.visibleWords agent a :=
  List.mem_cons_self

/-- Where word stores are atomic a visible value is seen as a whole (R26). -/
theorem State.maySeeWord_atomic {s : State} (h : s.platform.wordStoreAtomic = true) (agent : Nat)
    (a : Addr) (seen : Vector Byte 4) :
    s.maySeeWord agent a seen = true ↔ seen ∈ s.visibleWords agent a := by
  simp [State.maySeeWord, h]

/-- Where they are not, each byte is seen from any visible value (R26). -/
theorem State.maySeeWord_nonatomic {s : State} (h : s.platform.wordStoreAtomic = false)
    (agent : Nat) (a : Addr) (seen : Vector Byte 4) :
    s.maySeeWord agent a seen = true ↔
      ∀ k : Fin 4, ∃ v ∈ s.visibleWords agent a, v[k] = seen[k] := by
  simp [State.maySeeWord, h]

/-- A word with one visible value is seen as that value, atomic or not. -/
theorem State.maySeeWord_of_visibleWords_eq {s : State} {agent : Nat} {a : Addr}
    {v : Vector Byte 4} (h : s.visibleWords agent a = [v]) (seen : Vector Byte 4) :
    s.maySeeWord agent a seen = true ↔ seen = v := by
  cases hat : s.platform.wordStoreAtomic with
  | true => rw [State.maySeeWord_atomic hat, h, List.mem_singleton]
  | false =>
    rw [State.maySeeWord_nonatomic hat, h, eq_comm, vector4_eq_iff]
    simp

/-- After its own store the storing thread has one visible value, the new one (R30). -/
theorem visibleWords_stored_own (i : Instr) (s : State) :
    (stored i s).visibleWords s.cur.id (instrAddress i s.cur) =
      [launchFill (instrAddress i s.cur)
        (Memory.wordBytes (stored i s).mem (instrAddress i s.cur))] := by
  simp [State.visibleWords, overwrittenSince]

/-- To another agent a store adds one visible value to those before it (R31). -/
theorem visibleWords_stored_other (i : Instr) (s : State) {agent : Nat} (h : agent ≠ s.cur.id) :
    (stored i s).visibleWords agent (instrAddress i s.cur) =
      launchFill (instrAddress i s.cur)
        (Memory.wordBytes (stored i s).mem (instrAddress i s.cur)) ::
        s.visibleWords agent (instrAddress i s.cur) := by
  simp [State.visibleWords, overwrittenSince, h.symm]

/-- The four bytes that memory holds at the word an instruction addresses, one by one. -/
theorem launchFill_instrAddress (m : Memory) (i : Instr) (t : Thread) (k : Fin 4) :
    (launchFill (instrAddress i t) (Memory.wordBytes m (instrAddress i t)))[k] =
      Memory.byte m ((instrAddress i t).toNat + k.val) :=
  Memory.launchFill_wordBytes m (instrAddress_aligned i t) k

/-- The byte of memory after a store, at each of the four addresses. -/
theorem byte_stored (i : Instr) (s : State) (k : Fin 4) :
    some (Memory.byte (stored i s).mem ((instrAddress i s.cur).toNat + k.val)) =
      (readVr s.cur (instrVs i))[4 * ((instrEA i s.cur).toNat % 16 / 4) + k.val]? := by
  have hr := read_stored i s k.isLt
  rw [laneByte_eq] at hr ⊢
  rw [Memory.byte_of_read hr]

/-- Settles O25: the storing thread has its own store as the one visible value, and a second store
there leaves its own lane (`read_stored`). -/
theorem ownStoresAreSeenInProgramOrder : Obligations.OwnStoresAreSeenInProgramOrder := by
  intro i j s t u h
  obtain ⟨rfl, -, -⟩ := exec_next h
  refine ⟨fun seen => ?_, fun h' haddr k hk => ?_⟩
  · rw [State.maySeeWord_of_visibleWords_eq (visibleWords_stored_own i s), vector4_eq_iff]
    refine forall_congr' fun k => ?_
    rw [launchFill_instrAddress, ← byte_stored, Option.some_inj]
  · obtain ⟨rfl, -, -⟩ := exec_next h'
    rw [← haddr]
    exact read_stored j (stored i s) hk

/-- Settles O26: each byte is seen from the value after the store or from the one before it, and
both are visible. -/
theorem otherAgentsMaySeePartOfAStore : Obligations.OtherAgentsMaySeePartOfAStore := by
  intro i s t agent updated h hat hagent
  obtain ⟨rfl, -, -⟩ := exec_next h
  rw [State.maySeeWord_nonatomic (s := stored i s) hat, visibleWords_stored_other i s hagent]
  intro k
  by_cases hk : updated[k.val] = true
  · refine ⟨_, List.mem_cons_self, (launchFill_instrAddress _ i s.cur k).trans ?_⟩
    simp [hk]
  · refine ⟨_, List.mem_cons_of_mem _ (s.mem_visibleWords_latest agent _),
      (launchFill_instrAddress _ i s.cur k).trans ?_⟩
    simp [hk]

/-- Settles O27: what another agent may see is the new word or what it could see before. -/
theorem atomicStoresAreSeenWhole : Obligations.AtomicStoresAreSeenWhole := by
  intro i s t agent seen h hat hagent
  obtain ⟨rfl, -, -⟩ := exec_next h
  rw [State.maySeeWord_atomic (s := stored i s) hat, State.maySeeWord_atomic hat,
    visibleWords_stored_other i s hagent, List.mem_cons, vector4_eq_iff]
  simp only [launchFill_instrAddress]

/-- The order in which two stores of the run may be seen (R31). -/
theorem State.mayThenSee_iff {s : State} {i j : Nat} {e f : StoreEvent}
    (hi : s.stores.reverse[i]? = some e) (hj : s.stores.reverse[j]? = some f) :
    s.mayThenSee i j = true ↔ (e.addr = f.addr ∧ e.agent = f.agent → i ≤ j) := by
  simp only [State.mayThenSee, hi, hj]
  simp [imp_iff_not_or]

/-- Settles O28: the two events are the newest two, by one agent, and only one address orders
them. -/
theorem storesAreOrderedPerLocationOnly : Obligations.StoresAreOrderedPerLocationOnly := by
  intro i j s t u h h'
  obtain ⟨rfl, -, -⟩ := exec_next h
  obtain ⟨rfl, -, -⟩ := exec_next h'
  have hfst : (stored j (stored i s)).stores.reverse[s.stores.length]? =
      (stored i s).stores.head? := by
    simp
  have hsnd : (stored j (stored i s)).stores.reverse[s.stores.length + 1]? =
      (stored j (stored i s)).stores.head? := by
    simp
  rw [State.mayThenSee_iff hfst hsnd, State.mayThenSee_iff hsnd hfst]
  simp [eq_comm]

/-! ### A step of the machine (R25, R28, R34) -/

/-- Settles O38: a step stores where `Admit` allows it or leaves memory alone. -/
theorem unadmittedBytesNeverChange : Obligations.UnadmittedBytesNeverChange := by
  intro s t h
  rcases step_next h with ⟨-, rfl⟩ | ⟨-, _, i, -, -, hex, rfl⟩ | ⟨-, -, k, rfl⟩
  · simp
  · obtain ⟨-, -, hadm⟩ := exec_next hex
    refine ⟨by simp, fun a ha => ?_⟩
    rw [State.passTurn_mem]
    exact read_stored_unadmitted hadm ha
  · simp

/-- A byte of the stored word is the byte of the register at the same offset of the 16-byte block
(R56). -/
theorem read_stored_block (i : Instr) (s : State) {a : Nat}
    (hlo : (instrAddress i s.cur).toNat ≤ a) (hhi : a < (instrAddress i s.cur).toNat + 4) :
    Memory.read (stored i s).mem a = (readVr s.cur (instrVs i))[a % 16]? := by
  obtain ⟨k, rfl⟩ := Nat.exists_eq_add_of_le hlo
  rw [read_stored i s (by omega)]
  congr 1
  rw [instrAddress_toNat] at hhi ⊢
  omega

/-- Settles O41: of what a step can do, only the store changes memory, and only at its own word. -/
theorem memoryChangesOnlyWhereTheInstructionStores :
    Obligations.MemoryChangesOnlyWhereTheInstructionStores := by
  intro s t a h hne
  rcases step_next h with ⟨-, rfl⟩ | ⟨hh, w, i, hf, hd, -, rfl⟩ | ⟨-, -, k, rfl⟩
  · exact absurd (by rw [State.passTurn_mem]) hne
  · rw [State.passTurn_mem] at hne ⊢
    have hin : (instrAddress i s.cur).toNat ≤ a ∧ a < (instrAddress i s.cur).toNat + 4 := by
      by_contra hout
      exact hne (read_stored_other i s (by omega))
    obtain ⟨hlo, hhi⟩ := hin
    exact ⟨hh, w, i, hf, hd, hlo, hhi, read_stored_block i s hlo hhi⟩
  · exact absurd (by rw [State.stopThread_mem]) hne

/-- Settles O13: an admitted word has four admitted bytes, and none of those is in `TEXT`, in a
device or past the end of the space. -/
theorem textAndDevicesAreNotAdmittedForWrite :
    Obligations.TextAndDevicesAreNotAdmittedForWrite := by
  intro p a k hk hbad
  rw [← Bool.not_eq_true, Platform.admits_four]
  intro hadm
  obtain ⟨hlt, htext, hdev⟩ := Platform.admitsByte_write (hadm k hk)
  rcases hbad with h | h | h
  · exact absurd h (by simp [htext])
  · exact absurd h (by simp [hdev])
  · omega

end Sys2Proof.Machine
end

section
/-! PROOF. The statements of the family 30_encoding.md: the decoder and the encoder by the fields of
a word, the operand forms, and the step that runs what was decoded. -/

namespace Sys2Proof

/-! ### The fields of a word (R37, R38) -/

/-- A field under a mask, part by part. -/
theorem extract_and_append_eq_iff {k n : Nat} (w : Word) (start : Nat) (m v : BitVec k)
    (m' v' : BitVec n) :
    w.extractLsb' start (k + n) &&& (m ++ m') = v ++ v' ↔
      w.extractLsb' (start + n) k &&& m = v ∧ w.extractLsb' start n &&& m' = v' := by
  rw [← BitVec.extractLsb'_append_extractLsb'_eq_extractLsb' rfl, BitVec.and_append]
  refine ⟨fun h => ⟨?_, ?_⟩, fun ⟨hhi, hlo⟩ => by rw [hhi, hlo]⟩
  · simpa only [BitVec.extractLsb'_append_eq_left] using congrArg (·.extractLsb' n k) h
  · simpa only [BitVec.extractLsb'_append_eq_right] using congrArg (·.extractLsb' 0 n) h

/-- The mask of form `X` looks at the primary opcode, `XO` and source bit 31 (R39, R44). -/
theorem maskX_iff (w : Word) (op : BitVec 6) (xo : BitVec 10) (rc : BitVec 1) :
    w &&& 0xFC0007FF#32 = op ++ 0#15 ++ xo ++ rc ↔
      w.extractLsb' 26 6 = op ∧ w.extractLsb' 1 10 = xo ∧ w.extractLsb' 0 1 = rc := by
  have hmask : 0xFC0007FF#32 =
      BitVec.allOnes 6 ++ 0#15 ++ BitVec.allOnes 10 ++ BitVec.allOnes 1 := rfl
  rw [hmask, ← BitVec.extractLsb'_eq_self (x := w),
    extract_and_append_eq_iff (k := 31) (n := 1), extract_and_append_eq_iff (k := 21) (n := 10),
    extract_and_append_eq_iff (k := 6) (n := 15)]
  simp only [BitVec.and_allOnes, BitVec.and_zero, BitVec.extractLsb'_eq_self, and_true, and_assoc]

/-- The mask of form `VX128_1` looks at the primary opcode, `w[10:4]` and `w[1:0]` (R40). -/
theorem maskVX128_iff (w : Word) (op : BitVec 6) (xo : BitVec 7) (low : BitVec 2) :
    w &&& 0xFC0007F3#32 = op ++ 0#15 ++ xo ++ 0#2 ++ low ↔
      w.extractLsb' 26 6 = op ∧ w.extractLsb' 4 7 = xo ∧ w.extractLsb' 0 2 = low := by
  have hmask : 0xFC0007F3#32 =
      BitVec.allOnes 6 ++ 0#15 ++ BitVec.allOnes 7 ++ 0#2 ++ BitVec.allOnes 2 := rfl
  rw [hmask, ← BitVec.extractLsb'_eq_self (x := w),
    extract_and_append_eq_iff (k := 30) (n := 2), extract_and_append_eq_iff (k := 28) (n := 2),
    extract_and_append_eq_iff (k := 21) (n := 7), extract_and_append_eq_iff (k := 6) (n := 15)]
  simp only [BitVec.and_allOnes, BitVec.and_zero, BitVec.extractLsb'_eq_self, and_true, and_assoc]

/-- Without `w[1:0]` the mask looks at the primary opcode and `w[10:4]` alone (R45). -/
theorem maskVX128_open_iff (w : Word) (op : BitVec 6) (xo : BitVec 7) :
    w &&& 0xFC0007F0#32 = op ++ 0#15 ++ xo ++ 0#4 ↔
      w.extractLsb' 26 6 = op ∧ w.extractLsb' 4 7 = xo := by
  have hmask : 0xFC0007F0#32 =
      BitVec.allOnes 6 ++ 0#15 ++ BitVec.allOnes 7 ++ 0#4 := rfl
  rw [hmask, ← BitVec.extractLsb'_eq_self (x := w),
    extract_and_append_eq_iff (k := 28) (n := 4), extract_and_append_eq_iff (k := 21) (n := 7),
    extract_and_append_eq_iff (k := 6) (n := 15)]
  simp only [BitVec.and_allOnes, BitVec.and_zero, BitVec.extractLsb'_eq_self, and_true]

theorem rowStvewx_matchesWord_iff (w : Word) : rowStvewx.matchesWord w = true ↔
    w.extractLsb' 26 6 = 31 ∧ w.extractLsb' 1 10 = 199 ∧ w.extractLsb' 0 1 = 0 :=
  (rowStvewx.matchesWord_iff w).trans (maskX_iff w 31 199 0)

theorem rowStvewx128_matchesWord_iff (w : Word) : rowStvewx128.matchesWord w = true ↔
    w.extractLsb' 26 6 = 4 ∧ w.extractLsb' 4 7 = 24 ∧ w.extractLsb' 0 2 = 3 :=
  (rowStvewx128.matchesWord_iff w).trans (maskVX128_iff w 4 24 3)

theorem recordBitPattern_iff (w : Word) : w &&& 0xFC0007FF#32 = 0x7C00018F#32 ↔
    w.extractLsb' 26 6 = 31 ∧ w.extractLsb' 1 10 = 199 ∧ w.extractLsb' 0 1 = 1 :=
  maskX_iff w 31 199 1

theorem reservedBitsPattern_iff (w : Word) : w &&& 0xFC0007F0#32 = 0x10000180#32 ↔
    w.extractLsb' 26 6 = 4 ∧ w.extractLsb' 4 7 = 24 :=
  maskVX128_open_iff w 4 24

/-- A word is its fields of form `X`, joined (R37). -/
theorem join_fieldsX (w : Word) :
    w.extractLsb' 26 6 ++ fieldVsLow w ++ fieldRA w ++ fieldRB w ++ w.extractLsb' 1 10 ++
      w.extractLsb' 0 1 = w := by
  unfold fieldVsLow fieldRA fieldRB
  rw [BitVec.extractLsb'_append_extractLsb'_eq_extractLsb' (rfl : 26 = 21 + 5),
    BitVec.extractLsb'_append_extractLsb'_eq_extractLsb' (rfl : 21 = 16 + 5),
    BitVec.extractLsb'_append_extractLsb'_eq_extractLsb' (rfl : 16 = 11 + 5),
    BitVec.extractLsb'_append_extractLsb'_eq_extractLsb' (rfl : 11 = 1 + 10),
    BitVec.extractLsb'_append_extractLsb'_eq_extractLsb' (rfl : 1 = 0 + 1),
    BitVec.extractLsb'_eq_self]

/-- A word is its fields of form `VX128_1`, joined (R38). -/
theorem join_fieldsVX128 (w : Word) :
    w.extractLsb' 26 6 ++ fieldVsLow w ++ fieldRA w ++ fieldRB w ++ w.extractLsb' 4 7 ++
      fieldVsHigh w ++ w.extractLsb' 0 2 = w := by
  unfold fieldVsLow fieldRA fieldRB fieldVsHigh
  rw [BitVec.extractLsb'_append_extractLsb'_eq_extractLsb' (rfl : 26 = 21 + 5),
    BitVec.extractLsb'_append_extractLsb'_eq_extractLsb' (rfl : 21 = 16 + 5),
    BitVec.extractLsb'_append_extractLsb'_eq_extractLsb' (rfl : 16 = 11 + 5),
    BitVec.extractLsb'_append_extractLsb'_eq_extractLsb' (rfl : 11 = 4 + 7),
    BitVec.extractLsb'_append_extractLsb'_eq_extractLsb' (rfl : 4 = 2 + 2),
    BitVec.extractLsb'_append_extractLsb'_eq_extractLsb' (rfl : 2 = 0 + 2),
    BitVec.extractLsb'_eq_self]

theorem joinVs_low (h : BitVec 2) (l : BitVec 5) : (joinVs h l).extractLsb' 0 5 = l :=
  BitVec.extractLsb'_append_eq_right

theorem joinVs_high (h : BitVec 2) (l : BitVec 5) : (joinVs h l).extractLsb' 5 2 = h :=
  BitVec.extractLsb'_append_eq_left

/-! ### Which instruction a word is (R47) -/

theorem decodeWord_eq_stvewx_iff (w : Word) (vs : VrName) (ra rb : GprName) :
    decodeWord w = .ok (.stvewx vs ra rb) ↔ rowStvewx.matchesWord w = true ∧
      joinVs 0 (fieldVsLow w) = vs ∧ fieldRA w = ra ∧ fieldRB w = rb := by
  rcases decodeWord_cases w with ⟨hrow, hd⟩ | ⟨hrow, hd⟩ | ⟨hrow, -, e, hd⟩ <;> rw [hd]
  · simp [hrow]
  · have hne : ¬rowStvewx.matchesWord w = true := fun h => rows_disjoint w ⟨h, hrow⟩
    simp [hne]
  · simp [hrow]

theorem decodeWord_eq_stvewx128_iff (w : Word) (vs : VrName) (ra rb : GprName) :
    decodeWord w = .ok (.stvewx128 vs ra rb) ↔ rowStvewx128.matchesWord w = true ∧
      joinVs (fieldVsHigh w) (fieldVsLow w) = vs ∧ fieldRA w = ra ∧ fieldRB w = rb := by
  rcases decodeWord_cases w with ⟨hrow, hd⟩ | ⟨hrow, hd⟩ | ⟨-, hrow, e, hd⟩ <;> rw [hd]
  · have hne : ¬rowStvewx128.matchesWord w = true := fun h => rows_disjoint w ⟨hrow, h⟩
    simp [hne]
  · simp [hrow]
  · simp [hrow]

/-- Four bytes decode to the instruction that their word is, and the rest is left. -/
theorem decode_eq_ok_iff (b0 b1 b2 b3 : Byte) (rest rest' : List Byte) (i : Instr) :
    decode (b0 :: b1 :: b2 :: b3 :: rest) = .ok (i, rest') ↔
      decodeWord (wordOfBytes b0 b1 b2 b3) = .ok i ∧ rest = rest' := by
  rw [decode]
  cases decodeWord (wordOfBytes b0 b1 b2 b3) <;> simp

/-- An encoding has the bits of its row and, in their fields, its operands. -/
theorem decodeWord_encode {i : Instr} (h : i.WellFormed) : decodeWord (encode i) = .ok i := by
  cases i with
  | stvewx vs ra rb =>
    obtain ⟨hlow, hra, hrb⟩ := fields_encode_stvewx vs ra rb
    rw [decodeWord_eq_stvewx_iff, hlow, joinVs_extract_small h]
    exact ⟨Laws.FixedBits.stvewx vs ra rb, rfl, hra, hrb⟩
  | stvewx128 vs ra rb =>
    obtain ⟨hlow, hhigh, hra, hrb⟩ := fields_encode_stvewx128 vs ra rb
    rw [decodeWord_eq_stvewx128_iff, hlow, hhigh, joinVs_extract]
    exact ⟨Laws.FixedBits.stvewx128 vs ra rb, rfl, hra, hrb⟩

/-- Settles O1: the bytes of an encoding are those of its word, which decodes by its fields. -/
theorem decodeOfEncodeIsTheInstruction : Obligations.DecodeOfEncodeIsTheInstruction := by
  intro i rest h
  refine (decode_eq_ok_iff ..).2 ⟨?_, rfl⟩
  rw [wordOfBytes_extract]
  exact decodeWord_encode h

/-- In the row of `stvewx` the operand fields tell words apart. -/
theorem eq_of_rowStvewx {w w' : Word} (hw : rowStvewx.matchesWord w = true)
    (hw' : rowStvewx.matchesWord w' = true) (hvs : fieldVsLow w = fieldVsLow w')
    (hra : fieldRA w = fieldRA w') (hrb : fieldRB w = fieldRB w') : w = w' := by
  obtain ⟨hop, hxo, hrc⟩ := (rowStvewx_matchesWord_iff w).1 hw
  obtain ⟨hop', hxo', hrc'⟩ := (rowStvewx_matchesWord_iff w').1 hw'
  rw [← join_fieldsX w, ← join_fieldsX w', hop, hop', hxo, hxo', hrc, hrc', hvs, hra, hrb]

/-- In the row of `stvewx128` the operand fields tell words apart. -/
theorem eq_of_rowStvewx128 {w w' : Word} (hw : rowStvewx128.matchesWord w = true)
    (hw' : rowStvewx128.matchesWord w' = true) (hlow : fieldVsLow w = fieldVsLow w')
    (hhigh : fieldVsHigh w = fieldVsHigh w') (hra : fieldRA w = fieldRA w')
    (hrb : fieldRB w = fieldRB w') : w = w' := by
  obtain ⟨hop, hxo, hmin⟩ := (rowStvewx128_matchesWord_iff w).1 hw
  obtain ⟨hop', hxo', hmin'⟩ := (rowStvewx128_matchesWord_iff w').1 hw'
  rw [← join_fieldsVX128 w, ← join_fieldsVX128 w', hop, hop', hxo, hxo', hmin, hmin', hlow, hhigh,
    hra, hrb]

/-- The 5-bit register number of `stvewx` (R41). -/
theorem joinVs_zero_toNat (l : BitVec 5) : (joinVs 0 l).toNat = l.toNat := by
  simp [joinVs_toNat]

/-- Settles O2: the word and the encoding are of one row and have the same operand fields. -/
theorem encodeOfDecodeIsTheWord : Obligations.EncodeOfDecodeIsTheWord := by
  intro w i h
  cases i with
  | stvewx vs ra rb =>
    obtain ⟨hrow, rfl, rfl, rfl⟩ := (decodeWord_eq_stvewx_iff ..).1 h
    obtain ⟨hlow, hra, hrb⟩ :=
      fields_encode_stvewx (joinVs 0 (fieldVsLow w)) (fieldRA w) (fieldRB w)
    refine ⟨?_, eq_of_rowStvewx (Laws.FixedBits.stvewx ..) hrow ?_ hra hrb⟩
    · rw [Instr.WellFormed, joinVs_zero_toNat]
      exact (fieldVsLow w).isLt
    · rw [hlow, joinVs_low]
  | stvewx128 vs ra rb =>
    obtain ⟨hrow, rfl, rfl, rfl⟩ := (decodeWord_eq_stvewx128_iff ..).1 h
    obtain ⟨hlow, hhigh, hra, hrb⟩ :=
      fields_encode_stvewx128 (joinVs (fieldVsHigh w) (fieldVsLow w)) (fieldRA w) (fieldRB w)
    refine ⟨trivial, eq_of_rowStvewx128 (Laws.FixedBits.stvewx128 ..) hrow ?_ ?_ hra hrb⟩
    · rw [hlow, joinVs_low]
    · rw [hhigh, joinVs_high]

/-- Settles O4: each word fails the tests before its own, by its primary opcode or by its low
bits. -/
theorem reservedPatternsAreRejectedByName : Obligations.ReservedPatternsAreRejectedByName := by
  intro w
  refine ⟨fun hop hxo hrc => ?_, fun hop hxo hlow => ?_⟩
  · have hrow : ¬rowStvewx.matchesWord w = true := by
      simp [rowStvewx_matchesWord_iff, hrc]
    have hrow128 : ¬rowStvewx128.matchesWord w = true := by
      simp [rowStvewx128_matchesWord_iff, hop]
    rw [decodeWord, if_neg hrow, if_neg hrow128,
      if_pos ((recordBitPattern_iff w).2 ⟨hop, hxo, hrc⟩)]
  · have hrow : ¬rowStvewx.matchesWord w = true := by
      simp [rowStvewx_matchesWord_iff, hop]
    have hrow128 : ¬rowStvewx128.matchesWord w = true := by
      rw [rowStvewx128_matchesWord_iff]
      exact fun ⟨_, _, h⟩ => hlow h
    have hrecord : ¬w &&& 0xFC0007FF#32 = 0x7C00018F#32 := by
      simp [recordBitPattern_iff, hop]
    rw [decodeWord, if_neg hrow, if_neg hrow128, if_neg hrecord,
      if_pos ((reservedBitsPattern_iff w).2 ⟨hop, hxo⟩)]

/-- Settles O5: the instruction is that of the row, and the row's bits are the opcode fields. -/
theorem decodeSelectsByOpcodeFields : Obligations.DecodeSelectsByOpcodeFields := by
  intro w
  rw [← rowStvewx_matchesWord_iff, ← rowStvewx128_matchesWord_iff]
  simp [decodeWord_eq_stvewx_iff, decodeWord_eq_stvewx128_iff]

/-- Settles O6: the decoder joins the fields, and every number is reached from its own encoding. -/
theorem vectorRegisterNumberFromItsFields : Obligations.VectorRegisterNumberFromItsFields := by
  refine ⟨fun w vs ra rb => ⟨fun h => ?_, fun h => ?_⟩,
    fun vs ra rb => ⟨_, decodeWord_encode (i := .stvewx128 vs ra rb) trivial⟩,
    fun vs ra rb hvs => ⟨_, decodeWord_encode (i := .stvewx vs ra rb) hvs⟩⟩
  · obtain ⟨-, rfl, -, -⟩ := (decodeWord_eq_stvewx128_iff ..).1 h
    exact ⟨rfl, joinVs_toNat ..⟩
  · obtain ⟨-, rfl, -, -⟩ := (decodeWord_eq_stvewx_iff ..).1 h
    rw [joinVs_zero_toNat]
    exact ⟨rfl, (fieldVsLow w).isLt⟩

end Sys2Proof

namespace Sys2Proof.Machine

/-! ### The operand forms (R42) -/

theorem readRA0_zero (t : Thread) : readRA0 t 0 = 0 := if_pos rfl

theorem readRA0_of_ne_zero (t : Thread) {ra : GprName} (h : ra ≠ 0) :
    readRA0 t ra = readGpr t ra := if_neg h

/-- The effective address with the base field 0: the index alone. -/
theorem effectiveAddress_zero_base (t : Thread) (rb : GprName) :
    effectiveAddress t 0 rb = trunc32 (readGpr t rb) := by
  rw [effectiveAddress, readRA0_zero]
  exact congrArg trunc32 (BitVec.zero_add _)

theorem readGpr_set_zero (t : Thread) (x : Dword) :
    readGpr { t with gpr := t.gpr.set 0 x } 0 = x := Vector.getElem_set_self _

theorem readGpr_set_zero_of_ne (t : Thread) (x : Dword) {r : GprName} (h : r ≠ 0) :
    readGpr { t with gpr := t.gpr.set 0 x } r = readGpr t r :=
  Vector.getElem_set_ne (by decide) r.isLt fun h0 => h (BitVec.eq_of_toNat_eq h0.symm)

/-- Settles O7: the field 0 makes the address the low half of the index register. -/
theorem baseOperandIsZeroOrTheRegister : Obligations.BaseOperandIsZeroOrTheRegister := by
  refine ⟨readRA0_zero, fun t ra h => readRA0_of_ne_zero t h, fun t rb x h => ?_, fun t x => ?_,
    fun i t => rfl⟩
  · rw [effectiveAddress_zero_base, effectiveAddress_zero_base, readGpr_set_zero_of_ne t x h]
  · rw [effectiveAddress_zero_base, readGpr_set_zero, trunc32]

/-! ### A step of the machine (R8, R47) -/

/-- Where nothing stops the fetch and the word is an instruction, the thread's step is its
meaning. -/
theorem threadStep_of_decodeWord {s : State} {i : Instr} {w : Word} (hf : fetchWord s = .ok w)
    (hd : decodeWord w = .ok i) : threadStep s = exec i s := by
  simp only [threadStep, hf, hd]

/-- Settles O29: the thread is not halted, fetches the four bytes, and runs what they decode to. -/
theorem stepRunsTheDecodedInstruction : Obligations.StepRunsTheDecodedInstruction := by
  intro s i hmark hend hpc hadm hdec
  obtain ⟨hd, -⟩ := (decode_eq_ok_iff ..).1 hdec
  rw [← Memory.readWord_eq s.mem hpc] at hd
  have hstep : step s = afterTurn s (exec i s) := by
    rw [step, State.halted_eq_false hmark hend, threadStep_of_decodeWord (fetchWord_ok hpc hadm) hd]
    rfl
  refine ⟨hstep, fun t ht => ?_, fun halone => ?_⟩
  · rw [hstep, ht, afterTurn]
  · rw [hstep, afterTurn_alone halone]

end Sys2Proof.Machine
end

section
/-! PROOF. The statements of the family 40_vector_element_store.md: the address, the lane and the
whole effect of the two stores, the image that several of them leave, and the frame of a step. -/

namespace Sys2Proof.Machine

/-! ### The effective address (R51) -/

/-- The low half of a sum is the sum of the low halves modulo 2^32 (R6). -/
theorem trunc32_add_toNat (x y : Dword) :
    (trunc32 (x + y)).toNat = (x.toNat % 2 ^ 32 + y.toNat % 2 ^ 32) % 2 ^ 32 := by
  rw [trunc32, BitVec.toNat_setWidth, BitVec.toNat_add, Nat.mod_mod_of_dvd _ (by decide),
    Nat.add_mod]

/-- Settles O8: the address is a truncated sum, and a store is recorded at `ea` and completes its
thread, which keeps every general register. -/
theorem effectiveAddressOfBothInstructions : Obligations.EffectiveAddressOfBothInstructions := by
  intro i s base index
  refine ⟨rfl, trunc32_add_toNat base index, rfl, fun t h => ?_⟩
  obtain ⟨rfl, -, -⟩ := exec_next h
  exact ⟨by simp, by simp⟩

/-! ### The lane and the stored word (R52) -/

theorem laneByte_eq_getElem! (v : VReg) (slot : BitVec 2) (k : Fin 4) :
    laneByte v slot k = v[4 * slot.toNat + k.val]! :=
  (getElem!_pos v _ (by omega)).symm

/-- The word of a lane is the concatenation of its four bytes, indexed in the whole register. -/
theorem laneWord_eq_getElem! (v : VReg) (slot : BitVec 2) :
    laneWord v slot = v[4 * slot.toNat]! ++ v[4 * slot.toNat + 1]! ++ v[4 * slot.toNat + 2]! ++
      v[4 * slot.toNat + 3]! := by
  simp only [laneWord, laneByte_eq_getElem!]
  rfl

/-- Registers that agree on a lane have one word there. -/
theorem laneWord_congr {v v' : VReg} {slot : BitVec 2}
    (h : ∀ k < 4, v'[4 * slot.toNat + k]? = v[4 * slot.toNat + k]?) :
    laneWord v' slot = laneWord v slot := by
  have hbyte (k : Fin 4) : laneByte v' slot k = laneByte v slot k := by
    rw [laneByte_eq_getElem!, laneByte_eq_getElem!, getElem!_def, getElem!_def, h k k.isLt]
  simp only [laneWord, hbyte]

/-- Settles O9: the slot is `EA mod 16 / 4`, and of the register only the bytes of that lane are in
the word. -/
theorem laneAndStoredWord : Obligations.LaneAndStoredWord := by
  refine ⟨?_, fun a b => laneSlot_alignWord_congr, fun a b h => ?_,
    fun v v' slot => laneWord_congr⟩
  · intro i s v slot
    have hslot : (laneSlot (instrEA i s.cur)).toNat = slot := laneSlot_toNat _
    refine ⟨rfl, hslot, ?_, fun t h => ?_⟩
    · rw [← hslot]
      exact laneWord_eq_getElem! v _
    · obtain ⟨rfl, -, -⟩ := exec_next h
      simp
  · exact BitVec.eq_of_toNat_eq (by rw [laneSlot_toNat, laneSlot_toNat, h])

/-! ### The whole effect (R53, R54) -/

/-- Where `pc + 4` fits and the four bytes are admitted, no check of R64 fails. -/
theorem exec_eq_next {i : Instr} {s : State} (hpc : s.cur.pc.toNat + 4 < 2 ^ 32)
    (hadm : ∀ k < 4, s.platform.admitsByte ((instrAddress i s.cur).toNat + k) .write = true) :
    exec i s = .next (stored i s) := by
  rw [exec_eq, (pcAtTop_eq_false _).2 hpc, (Platform.admits_four ..).2 hadm]
  rfl

/-- The whole effect of either instruction, with every operand. -/
theorem storesItsLane (i : Instr) (s : State) : StoresItsLane i s := by
  intro hpc hadm
  refine ⟨stored i s, exec_eq_next hpc hadm, fun k => read_stored i s,
    fun a => read_stored_other i s, rfl, rfl, rfl, List.filter_sublist, fun r hr => ?_, rfl⟩
  exact (mem_stored_reservations i s r).trans (and_iff_right hr)

/-- Settles O14: the case of `stvewx`. -/
theorem stvewxStoresItsLane : Obligations.StvewxStoresItsLane :=
  fun vs ra rb s => storesItsLane (.stvewx vs ra rb) s

/-- Settles O15: the case of `stvewx128`. -/
theorem stvewx128StoresItsLane : Obligations.Stvewx128StoresItsLane :=
  fun vs ra rb s => storesItsLane (.stvewx128 vs ra rb) s

/-- Settles O18: the answered state is `stored`, which completes the thread, adds an event and
writes four bytes. -/
theorem elementStoreFrame : Obligations.ElementStoreFrame := by
  intro i s t h
  obtain ⟨rfl, -, -⟩ := exec_next h
  exact ⟨rfl, rfl, rfl, rfl, rfl, rfl, rfl, rfl, rfl, rfl, rfl, fun a => read_stored_other i s⟩

/-- Settles O19: an instruction enters its outcome through its address and its word, and the two
have the same ones. -/
theorem siblingEncodingsHaveOneEffect : Obligations.SiblingEncodingsHaveOneEffect :=
  fun _ _ _ _ => exec_congr rfl rfl

/-! ### The block image (R56) -/

/-- Every byte after a store: the bytes of the word at `ea` are those of the register at the same
offset of the 16-byte block, the others are as before. -/
theorem read_stored_eq (i : Instr) (s : State) (a : Nat) :
    Memory.read (stored i s).mem a =
      if a / 4 * 4 = (instrAddress i s.cur).toNat then (readVr s.cur (instrVs i))[a % 16]?
      else Memory.read s.mem a := by
  have hal := instrAddress_aligned i s.cur
  split
  · exact read_stored_block i s (by omega) (by omega)
  · exact read_stored_other i s (by omega)

/-- Settles O20: the bytes `o` to `o + 3` of the block are the aligned word at `ea`. -/
theorem storeCopiesOneWordOfTheBlockImage : Obligations.StoreCopiesOneWordOfTheBlockImage := by
  intro i s t h ea blk o
  obtain ⟨rfl, -, -⟩ := exec_next h
  have hea : ea = (instrEA i s.cur).toNat / 4 * 4 := instrAddress_toNat i s.cur
  refine ⟨by rw [laneSlot_toNat]; omega, fun j hj => ?_⟩
  have hword : (blk + j) / 4 * 4 = ea ↔ o ≤ j ∧ j < o + 4 := by omega
  have hoff : (blk + j) % 16 = j := by omega
  rw [read_stored_eq, hoff]
  exact if_congr hword rfl rfl

/-- The state that stores done one after the other answer. -/
def storedAll (is : List Instr) (s : State) : State := is.foldl (fun t i => stored i t) s

@[simp] theorem storedAll_nil (s : State) : storedAll [] s = s := rfl
@[simp] theorem storedAll_cons (i : Instr) (is : List Instr) (s : State) :
    storedAll (i :: is) s = storedAll is (stored i s) := rfl

/-- The end of an instruction moves no address. -/
@[simp] theorem instrAddress_complete (i : Instr) (t : Thread) :
    instrAddress i t.complete = instrAddress i t := rfl

@[simp] theorem readVr_complete (t : Thread) (v : VrName) : readVr t.complete v = readVr t v := rfl

/-- Each store moves `pc` up by 4 and changes nothing else of its thread. -/
theorem storedAll_cur (is : List Instr) (s : State) :
    (storedAll is s).cur = s.cur.setPc (s.cur.pc + BitVec.ofNat 32 (4 * is.length)) := by
  induction is generalizing s with
  | nil => simp [Thread.setPc]
  | cons i is ih =>
    have hpc : s.cur.pc + 4 + BitVec.ofNat 32 (4 * is.length) =
        s.cur.pc + BitVec.ofNat 32 (4 * (i :: is).length) := by
      rw [List.length_cons, Nat.mul_succ, Nat.add_comm, BitVec.ofNat_add, BitVec.add_assoc]
      rfl
    rw [storedAll_cons, ih, ← hpc]
    rfl

/-- Stores run to their end where each is admitted and `pc` has room for all of them. -/
theorem execAll_eq_next {is : List Instr} {s : State}
    (hpc : s.cur.pc.toNat + 4 * is.length < 2 ^ 32)
    (hadm : ∀ i ∈ is, ∀ k < 4,
      s.platform.admitsByte ((instrAddress i s.cur).toNat + k) .write = true) :
    execAll is s = .next (storedAll is s) := by
  induction is generalizing s with
  | nil => rfl
  | cons i is ih =>
    obtain ⟨hi, his⟩ := List.forall_mem_cons.1 hadm
    rw [List.length_cons] at hpc
    have hroom : (stored i s).cur.pc.toNat + 4 * is.length < 2 ^ 32 := by
      rw [stored_cur, Thread.complete_pc]
      bv_omega
    rw [execAll, exec_eq_next (by omega) hi]
    exact ih hroom his

/-- Every byte after stores of one register: each of them copies its word of the same image, so the
order of the stores does not matter. -/
theorem read_storedAll {is : List Instr} {s : State} {vs : VrName} (hvs : ∀ i ∈ is, instrVs i = vs)
    (a : Nat) :
    Memory.read (storedAll is s).mem a =
      if a / 4 * 4 ∈ is.map fun i => (instrAddress i s.cur).toNat then (readVr s.cur vs)[a % 16]?
      else Memory.read s.mem a := by
  induction is generalizing s with
  | nil => simp
  | cons i is ih =>
    obtain ⟨rfl, his⟩ := List.forall_mem_cons.1 hvs
    rw [storedAll_cons, ih his, read_stored_eq, stored_cur]
    simp only [instrAddress_complete, readVr_complete, List.map_cons, List.mem_cons]
    by_cases hfirst : a / 4 * 4 = (instrAddress i s.cur).toNat
    · simp [hfirst]
    · simp [hfirst]

/-- Settles O21: the four addresses are the four words of the block in some order, so the bytes that
receive the image (`read_storedAll`) are those of the block. -/
theorem fourStoresSpillTheRegister : Obligations.FourStoresSpillTheRegister := by
  intro s vs is blk hblk hvs hperm hpc hadm
  have hlen : is.length = 4 := by simpa using hperm.length_eq
  have hcover (a : Nat) : (a / 4 * 4 ∈ is.map fun i => (instrAddress i s.cur).toNat) ↔
      blk ≤ a ∧ a < blk + 16 := by
    rw [hperm.mem_iff]
    simp only [List.mem_cons, List.not_mem_nil, or_false]
    omega
  have hadmits (i : Instr) (hi : i ∈ is) (k : Nat) (hk : k < 4) :
      s.platform.admitsByte ((instrAddress i s.cur).toNat + k) .write = true := by
    have hal := instrAddress_aligned i s.cur
    have hin := (hcover (instrAddress i s.cur).toNat).1 <| by
      rw [Nat.div_mul_cancel (Nat.dvd_of_mod_eq_zero hal)]
      exact List.mem_map_of_mem hi
    obtain ⟨j, hj⟩ := Nat.exists_eq_add_of_le hin.1
    rw [hj, Nat.add_assoc]
    exact hadm (j + k) (by omega)
  refine ⟨storedAll is s, execAll_eq_next (by omega) hadmits, ?_, fun j hj => ?_, fun a ha => ?_⟩
  · rw [storedAll_cur, hlen]
    rfl
  · rw [read_storedAll hvs, if_pos ((hcover _).2 (by omega)), show (blk + j) % 16 = j by omega]
  · rw [read_storedAll hvs, if_neg (by rw [hcover]; omega)]

/-! ### The frame of a step (R55, R70) -/

/-- After a step the threads are those waiting and the one that was at the turn, with a `pc` and a
mark, in some order. -/
theorem step_threads_perm {s t : State} (h : step s = .next t) :
    ∃ pc k, t.threads.Perm ((s.cur.setPc pc).setMark k :: s.others) := by
  rcases step_next h with ⟨-, rfl⟩ | ⟨-, _, i, -, -, -, rfl⟩ | ⟨-, -, k, rfl⟩
  · exact ⟨s.cur.pc, s.cur.mark, s.passTurn_perm⟩
  · exact ⟨s.cur.pc + 4, s.cur.mark, (stored i s).passTurn_perm⟩
  · exact ⟨s.cur.pc, some k, s.stopThread_perm k⟩

/-- Settles O39: a `pc` and a mark are all that a step writes of a thread. -/
theorem noStepWritesARegister : Obligations.NoStepWritesARegister := by
  intro s t h
  obtain ⟨pc, k, hperm⟩ := step_threads_perm h
  exact ⟨hperm.map _, fun u hu => hperm.mem_iff.2 (List.mem_cons_of_mem _ hu)⟩

end Sys2Proof.Machine
end

section
/-! PROOF. The statements of the family 60_exceptions.md: the four checks of a step in their order,
which stop each of them raises and with what information, and what a stop of one thread leaves. -/

namespace Sys2Proof.Machine

/-! ### The checks of an instruction (R53, R54, R64) -/

/-- A word is not admitted where one of its four bytes is not (R28). -/
theorem Platform.admits_four_eq_false (p : Platform) (a : Nat) (k : AccessKind) :
    p.admits a 4 k = false ↔ ∃ j < 4, p.admitsByte (a + j) k = false := by
  simp [Platform.admits]

theorem pcAtTop_eq_true (pc : Addr) : pcAtTop pc = true ↔ 2 ^ 32 ≤ pc.toNat + 4 := by
  simp [pcAtTop]

theorem exec_eq_pcOverflow (i : Instr) {s : State} (hpc : 2 ^ 32 ≤ s.cur.pc.toNat + 4) :
    exec i s = .fault (.pcOverflow s.cur.pc) := by
  rw [exec_eq, (pcAtTop_eq_true _).2 hpc]
  rfl

theorem exec_eq_storageFault {i : Instr} {s : State} (hpc : s.cur.pc.toNat + 4 < 2 ^ 32)
    (hadm : ∃ k < 4, s.platform.admitsByte ((instrAddress i s.cur).toNat + k) .write = false) :
    exec i s = .fault (.storageFault (instrAddress i s.cur) .write) := by
  rw [exec_eq, (pcAtTop_eq_false _).2 hpc, (Platform.admits_four_eq_false ..).2 hadm]
  rfl

/-- No instruction is refused by its meaning. -/
theorem exec_ne_refused (i : Instr) (s : State) (r : Refusal) : exec i s ≠ .refused r := by
  rcases exec_cases i s with ⟨-, e⟩ | ⟨-, -, e⟩ | ⟨-, -, e⟩ <;> rw [e] <;> exact nofun

/-- Settles O24: of the three things that an instruction can do (`exec_cases`) two are faults, each
behind its own check, and none is a refusal. -/
theorem stopsOfAStore : Obligations.StopsOfAStore := by
  refine fun i s => ⟨fun f => ⟨fun h => ?_, ?_⟩, exec_ne_refused i s⟩
  · rcases exec_cases i s with ⟨htop, e⟩ | ⟨-, -, e⟩ | ⟨hpc, hadm, e⟩ <;> rw [e] at h <;> cases h
    · exact .inl ⟨(pcAtTop_eq_true _).1 htop, rfl⟩
    · exact .inr ⟨(pcAtTop_eq_false _).1 hpc, (Platform.admits_four_eq_false ..).1 hadm, rfl⟩
  · rintro (⟨hpc, rfl⟩ | ⟨hpc, hadm, rfl⟩)
    · exact exec_eq_pcOverflow i hpc
    · exact exec_eq_storageFault hpc hadm

/-! ### A stop of a thread and of the machine (R62, R77) -/

/-- What the machine makes of either kind of stop (log 12). -/
theorem afterTurn_stopOutcome (s : State) (k : Stop) :
    afterTurn s (stopOutcome k) =
      if s.othersLive then .next (s.stopThread k) else stopOutcome k := by
  cases k <;> rfl

/-- The machine stops only with what its thread stopped with. -/
theorem eq_stopOutcome_of_afterTurn {s : State} {k : Stop} {o : Host.Outcome State Fault Refusal}
    (h : afterTurn s o = stopOutcome k) : o = stopOutcome k := by
  have stops {j : Stop} (hj : afterTurn s (stopOutcome j) = stopOutcome k) :
      stopOutcome j = stopOutcome k := by
    rw [afterTurn_stopOutcome] at hj
    split at hj
    · cases k <;> cases hj
    · exact hj
  cases o with
  | next t => cases k <;> cases h
  | fault f => exact stops (j := .faulted f) h
  | refused r => exact stops (j := .refused r) h

/-- A thread that is neither finished nor marked takes its step. -/
theorem step_eq_afterTurn {s : State} (h : s.halted s.cur = false) :
    step s = afterTurn s (threadStep s) := by
  simp [step, h]

/-- Where the machine stops, its thread took a step that stopped so. -/
theorem threadStep_of_step_stop {s : State} {k : Stop} (h : step s = stopOutcome k) :
    threadStep s = stopOutcome k := by
  unfold step at h
  split at h
  · cases k <;> cases h
  · exact eq_stopOutcome_of_afterTurn h

/-- Settles O34: the machine answers the stop or marks the thread (`afterTurn_stopOutcome`), and the
mark and the passing of the turn touch nothing that the threads share. -/
theorem stopOfOneThreadMarksItAlone : Obligations.StopOfOneThreadMarksItAlone := by
  intro s k hh hstop
  have hstep := step_eq_afterTurn hh
  rw [hstop, afterTurn_stopOutcome] at hstep
  refine ⟨fun hlive => by rw [hstep, hlive]; rfl, fun hlive => ⟨s.stopThread k, ?_,
    s.stopThread_perm k, s.stopThread_mem k, s.stopThread_reservations k, s.stopThread_stores k,
    s.stopThread_platform k⟩⟩
  rw [hstep, if_pos hlive]

/-! ### The step of a machine of one thread -/

/-- A machine of one thread steps as its thread does. -/
theorem step_alone {s : State} (halone : s.others = []) (hmark : s.cur.mark = none)
    (hend : s.cur.pc ≠ s.platform.endAddr) : step s = threadStep s := by
  have stops (k : Stop) : afterTurn s (stopOutcome k) = stopOutcome k := by
    simp [afterTurn_stopOutcome, State.othersLive, halone]
  rw [step_eq_afterTurn (State.halted_eq_false hmark hend)]
  rcases threadStep_cases s with ⟨f, -, e⟩ | ⟨w, -, -, -, e⟩ | ⟨-, i, -, -, e⟩ <;> rw [e]
  · exact stops (.faulted f)
  · exact stops (.refused (.refusedWord s.cur.pc w))
  · exact afterTurn_alone halone i

theorem threadStep_of_fetchWord_error {s : State} {f : Fault} (h : fetchWord s = .error f) :
    threadStep s = .fault f := by
  simp only [threadStep, h]

theorem threadStep_of_decodeWord_error {s : State} {w : Word} {e : Reject}
    (hf : fetchWord s = .ok w) (hd : decodeWord w = .error e) :
    threadStep s = .refused (.refusedWord s.cur.pc w) := by
  simp only [threadStep, hf, hd]

theorem fetchWord_misaligned {s : State} (h : s.cur.pc.toNat % 4 ≠ 0) :
    fetchWord s = .error (.pcMisaligned s.cur.pc) := by
  simp [fetchWord, h]

theorem fetchWord_unadmitted {s : State} (hpc : s.cur.pc.toNat % 4 = 0)
    (hadm : s.platform.admits s.cur.pc.toNat 4 .fetch = false) :
    fetchWord s = .error (.storageFault s.cur.pc .fetch) := by
  simp [fetchWord, hpc, hadm]

/-- Settles O30: a fetch or decode that fails ends the step of the one thread. -/
theorem fetchAndDecodeStops : Obligations.FetchAndDecodeStops := by
  intro s halone hmark hend hpc
  rw [step_alone halone hmark hend]
  exact ⟨fun hadm => threadStep_of_fetchWord_error (fetchWord_unadmitted hpc hadm),
    fun e hadm => threadStep_of_decodeWord_error (fetchWord_ok hpc hadm)⟩

/-- Settles O32: fetch and decode as in O30, then the checks of the instruction. -/
theorem checksOfAStepInOrder : Obligations.ChecksOfAStepInOrder := by
  intro s halone hmark hend hpc
  obtain ⟨hfetch, hdecode⟩ := fetchAndDecodeStops s halone hmark hend hpc
  refine ⟨fun hbyte => hfetch ((Platform.admits_four_eq_false ..).2 hbyte), fun hbytes => ?_⟩
  have hadm := (Platform.admits_four ..).2 hbytes
  refine ⟨fun e => hdecode e hadm, fun i hi => ?_⟩
  rw [step_alone halone hmark hend, threadStep_of_decodeWord (fetchWord_ok hpc hadm) hi]
  exact ⟨exec_eq_pcOverflow i, fun htop => ⟨exec_eq_storageFault htop,
    fun hst => ⟨stored i s, exec_eq_next htop hst, exec_eq_next htop hst⟩⟩⟩

/-! ### Every stop of a step (R62) -/

/-- A fetch that answers a word was at a multiple of 4, and answers what memory holds there. -/
theorem fetchWord_eq_ok {s : State} {w : Word} (h : fetchWord s = .ok w) :
    s.cur.pc.toNat % 4 = 0 ∧ w = Memory.readWord s.mem s.cur.pc := by
  rcases fetchWord_cases s with ⟨-, e⟩ | ⟨-, -, e⟩ | ⟨hpc, -, e⟩ <;> rw [e] at h <;> cases h
  exact ⟨hpc, rfl⟩

/-- The faults of a thread's step: the two of the fetch, and those of the instruction. -/
theorem threadStep_fault {s : State} {f : Fault} (h : threadStep s = .fault f) :
    (s.cur.pc.toNat % 4 ≠ 0 ∧ f = .pcMisaligned s.cur.pc) ∨
    (s.cur.pc.toNat % 4 = 0 ∧ (f = .storageFault s.cur.pc .fetch ∨
      ∃ i, decodeWord (Memory.readWord s.mem s.cur.pc) = .ok i ∧ exec i s = .fault f)) := by
  rcases threadStep_cases s with ⟨g, hf, e⟩ | ⟨w, x, -, -, e⟩ | ⟨w, i, hf, hd, e⟩ <;> rw [e] at h
  · cases h
    rcases fetchWord_cases s with ⟨hpc, e⟩ | ⟨hpc, -, e⟩ | ⟨-, -, e⟩ <;> rw [e] at hf <;> cases hf
    · exact .inl ⟨hpc, rfl⟩
    · exact .inr ⟨hpc, .inl rfl⟩
  · cases h
  · obtain ⟨hpc, rfl⟩ := fetchWord_eq_ok hf
    exact .inr ⟨hpc, .inr ⟨i, hd, h⟩⟩

/-- The one refusal of a thread's step (R46): that of a word that does not decode. -/
theorem threadStep_refused {s : State} {r : Refusal} (h : threadStep s = .refused r) :
    r = .refusedWord s.cur.pc (Memory.readWord s.mem s.cur.pc) := by
  rcases threadStep_cases s with ⟨g, -, e⟩ | ⟨w, x, hf, -, e⟩ | ⟨w, i, -, -, e⟩ <;> rw [e] at h
  · cases h
  · obtain ⟨-, rfl⟩ := fetchWord_eq_ok hf
    cases h
    rfl
  · exact absurd h (exec_ne_refused i s r)

/-- Settles O31: a stop of the machine is one of its thread (`threadStep_of_step_stop`), and that one
comes from the fetch, the decoder or the instruction. -/
theorem stopsAreThoseOfTheSpec : Obligations.StopsAreThoseOfTheSpec := by
  refine fun s => ⟨fun halone hmark hend hpc => ?_, fun f h => ?_, fun r h => ?_⟩
  · rw [step_alone halone hmark hend]
    exact threadStep_of_fetchWord_error (fetchWord_misaligned hpc)
  · rcases threadStep_fault (threadStep_of_step_stop (k := .faulted f) h) with
      hmis | ⟨hpc, hfetch | ⟨i, hi, hf⟩⟩
    · exact .inl hmis
    · exact .inr ⟨hpc, .inl hfetch⟩
    · exact .inr ⟨hpc, .inr ((exec_fault hf).imp_right fun e => ⟨i, hi, e⟩)⟩
  · exact threadStep_refused (threadStep_of_step_stop (k := .refused r) h)

end Sys2Proof.Machine
end

section
/-! PROOF. The statements of the family 70_reset_and_hazards.md: what a halted thread and a run that
is over do, the load of an instruction, and the run of a program from its launch to its end. -/

namespace Sys2Proof.Machine

/-! ### A thread that takes no further step, and the end of a run (R62, R77) -/

theorem State.halted_iff (s : State) (t : Thread) :
    s.halted t = true ↔ t.pc = s.platform.endAddr ∨ t.mark.isSome = true := by
  simp [State.halted, State.finished]

theorem step_of_halted {s : State} (h : s.halted s.cur = true) : step s = .next s.passTurn :=
  if_pos h

/-- Settles O33: the turn passes, and in a machine of one thread it stays. -/
theorem haltedThreadTakesNoStep : Obligations.HaltedThreadTakesNoStep := by
  intro s h
  have hstep := step_of_halted ((s.halted_iff s.cur).2 h)
  exact ⟨hstep, fun halone => by rw [hstep, s.passTurn_alone halone]⟩

theorem State.runOver_passTurn (s : State) : s.passTurn.runOver = s.runOver := by
  simp only [State.runOver, State.halted, State.finished, State.passTurn_platform]
  exact s.passTurn_perm.all_eq

theorem State.goodEnd_passTurn (s : State) : s.passTurn.goodEnd = s.goodEnd := by
  simp only [State.goodEnd, State.finished, State.passTurn_platform]
  exact s.passTurn_perm.all_eq

/-- Settles O45: the thread at the turn is halted like all others, so only the turn passes, and that
puts the threads in another order at most. -/
theorem endOfTheRunIsForGood : Obligations.EndOfTheRunIsForGood := by
  intro s h
  have hcur : s.halted s.cur = true := List.all_eq_true.1 h s.cur (List.mem_cons_self ..)
  exact ⟨s.passTurn, step_of_halted hcur, s.runOver_passTurn.trans h, s.goodEnd_passTurn,
    s.passTurn_mem, s.passTurn_perm⟩

/-! ### The load of an instruction word (R74; log 22) -/

/-- The whole word of an instruction is loaded, for it has 32 bits. -/
theorem State.withFetchWord_toNat (s : State) (w : Word) :
    s.withFetchWord 32 w.toNat = s.loadWord w := by
  rw [State.withFetchWord, Nat.mod_eq_of_lt w.isLt, BitVec.ofNat_toNat, BitVec.setWidth_eq]

/-- A word loaded at `pc` is not at `END`, which gives way to it. -/
theorem Platform.loadText_endAddr_ne (p : Platform) (pc : Addr) :
    pc ≠ (p.loadText pc).endAddr := by
  unfold Platform.loadText
  dsimp only
  split
  · bv_omega
  · exact Ne.symm ‹_›

/-- Whether a byte is admitted for fetch is a matter of the map alone. -/
theorem Platform.admitsByte_fetch (p : Platform) (a : Nat) :
    p.admitsByte a .fetch = true ↔
      a < 2 ^ 32 ∧ ∃ r ∈ p.map, r.has a = true ∧ r.fetchable = true := by
  simp [Platform.admitsByte, Region.permits]

/-- The word loaded is admitted for fetch: by the map as it was, or by the region put into it. -/
theorem Platform.loadText_admits_fetch (p : Platform) {pc : Addr} (h : pc.toNat % 4 = 0) :
    (p.loadText pc).admits pc.toNat 4 .fetch = true := by
  rw [Platform.admits_four]
  intro k hk
  rw [Platform.admitsByte_fetch]
  by_cases hadm : p.admits pc.toNat 4 .fetch = true
  · have hmap : (p.loadText pc).map = p.map := if_pos hadm
    rw [hmap, ← Platform.admitsByte_fetch]
    exact (Platform.admits_four ..).1 hadm k hk
  · have hmap : (p.loadText pc).map = ⟨pc.toNat, 4, .memory, false, true⟩ :: p.map := if_neg hadm
    rw [hmap]
    exact ⟨by omega, _, List.mem_cons_self .., by simp [Region.has, hk], rfl⟩

/-- The next fetch after a load answers the word loaded. -/
theorem fetchWord_loadWord (s : State) (w : Word) (h : s.cur.pc.toNat % 4 = 0) :
    fetchWord (s.loadWord w) = .ok w := by
  rw [fetchWord_ok (s := s.loadWord w) h (s.platform.loadText_admits_fetch h)]
  exact congrArg _ (Memory.readWord_writeWord s.mem h w)

/-- Settles O46: after the load the thread is unmarked and not at `END`, and what it fetches decodes
to the instruction. -/
theorem loadedInstructionIsTheNextOne : Obligations.LoadedInstructionIsTheNextOne := by
  intro s i hwf hpc
  rw [State.withFetchWord_toNat]
  have hlive : (s.loadWord (encode i)).halted (s.loadWord (encode i)).cur = false :=
    State.halted_eq_false rfl (s.platform.loadText_endAddr_ne s.cur.pc)
  have hexec := threadStep_of_decodeWord (fetchWord_loadWord s _ hpc) (decodeWord_encode hwf)
  exact ⟨by rw [step_eq_afterTurn hlive, hexec], rfl, rfl, rfl⟩

/-! ### Program text (R34, R74) -/

/-- A program from a later address on. -/
theorem State.holdsProgram.of_le {s : State} {a a' b : Addr} (h : s.holdsProgram a b)
    (hle : a.toNat ≤ a'.toNat) : s.holdsProgram a' b :=
  fun p hp => h p (hle.trans hp)

/-- No step changes a word of the program text. -/
theorem readWord_step_of_inText {s t : State} (h : step s = .next t) {p : Addr}
    (hp : p.toNat % 4 = 0) (htext : ∀ k < 4, s.platform.inText (p.toNat + k) = true) :
    Memory.readWord t.mem p = Memory.readWord s.mem p := by
  obtain ⟨-, hkept⟩ := unadmittedBytesNeverChange s t h
  refine Memory.readWord_congr hp fun k hk => hkept _ ?_
  simp [Platform.admitsByte, htext k hk]

theorem State.holdsProgram.of_step {s t : State} {a b : Addr} (h : s.holdsProgram a b)
    (hstep : step s = .next t) : t.holdsProgram a b := by
  obtain ⟨hplat, -⟩ := unadmittedBytesNeverChange s t hstep
  intro p hlo hhi hp
  obtain ⟨hadm, htext, hdec⟩ := h p hlo hhi hp
  rw [hplat, readWord_step_of_inText hstep hp htext]
  exact ⟨hadm, htext, hdec⟩

/-! ### A run under way (R74, R77) -/

/-- Settles O42: every thread is at `ENTRY`, from where the program goes up to `END`. -/
theorem launchIsOnProgram : Obligations.LaunchIsOnProgram := by
  rintro s ⟨hentry, hend, hle, hthreads, hprog⟩
  refine ⟨hend, fun t ht => ?_⟩
  obtain ⟨hpc, -⟩ := hthreads t ht
  rw [hpc]
  exact ⟨hentry, hle, hprog⟩

/-- Before `END` the thread at the turn has a word of the program to run, with room for it below
`END`. -/
theorem State.OnProgram.fetches {s : State} (h : s.OnProgram)
    (hne : s.cur.pc ≠ s.platform.endAddr) :
    s.cur.pc.toNat + 4 ≤ s.platform.endAddr.toNat ∧
      fetchWord s = .ok (Memory.readWord s.mem s.cur.pc) ∧
      ∃ i, decodeWord (Memory.readWord s.mem s.cur.pc) = .ok i := by
  obtain ⟨hend, hthreads⟩ := h
  obtain ⟨hpc, hle, hprog⟩ := hthreads s.cur (List.mem_cons_self ..)
  have hne : s.cur.pc.toNat ≠ s.platform.endAddr.toNat := fun e => hne (BitVec.eq_of_toNat_eq e)
  obtain ⟨hadm, -, hdec⟩ := hprog s.cur.pc le_rfl (by omega) hpc
  exact ⟨by omega, fetchWord_ok hpc hadm, hdec⟩

/-- After a step each thread is where one was before, or the thread at the turn, not yet at `END`,
has gone on by one word. -/
theorem pc_of_step {s t : State} (h : step s = .next t) {u : Thread} (hu : u ∈ t.threads) :
    (∃ v ∈ s.threads, u.pc = v.pc) ∨
      (s.cur.pc ≠ s.platform.endAddr ∧ u.pc = s.cur.pc + 4) := by
  rcases step_next h with ⟨-, rfl⟩ | ⟨hlive, _, i, -, -, -, rfl⟩ | ⟨-, -, k, rfl⟩
  · exact .inl ⟨u, s.passTurn_perm.mem_iff.1 hu, rfl⟩
  · rcases List.mem_cons.1 ((stored i s).passTurn_perm.mem_iff.1 hu) with rfl | hu
    · refine .inr ⟨fun hend => ?_, rfl⟩
      simp [(s.halted_iff s.cur).2 (.inl hend)] at hlive
    · exact .inl ⟨u, List.mem_cons_of_mem _ hu, rfl⟩
  · rcases List.mem_cons.1 ((s.stopThread_perm k).mem_iff.1 hu) with rfl | hu
    · exact .inl ⟨s.cur, List.mem_cons_self .., rfl⟩
    · exact .inl ⟨u, List.mem_cons_of_mem _ hu, rfl⟩

/-- No step leaves the program: a thread that goes on by a word was before `END`, and the words up
to `END` are as before. -/
theorem State.OnProgram.of_step {s t : State} (h : s.OnProgram) (hstep : step s = .next t) :
    t.OnProgram := by
  obtain ⟨hplat, -⟩ := unadmittedBytesNeverChange s t hstep
  have ⟨hend, hthreads⟩ := h
  rw [State.OnProgram, hplat]
  refine ⟨hend, fun u hu => ?_⟩
  rcases pc_of_step hstep hu with ⟨v, hv, hpc⟩ | ⟨hne, hpc⟩ <;> rw [hpc]
  · obtain ⟨hal, hle, hprog⟩ := hthreads v hv
    exact ⟨hal, hle, hprog.of_step hstep⟩
  · obtain ⟨hal, -, hprog⟩ := hthreads s.cur (List.mem_cons_self ..)
    obtain ⟨hroom, -, -⟩ := h.fetches hne
    have hnext : (s.cur.pc + 4).toNat = s.cur.pc.toNat + 4 := by bv_omega
    exact ⟨toNat_add_four_aligned hal, hnext ▸ hroom,
      (hprog.of_le (by omega)).of_step hstep⟩

/-- Where the machine stops on the program, its thread has fetched and decoded an instruction, and
stopped with it; `pc + 4` is within the space. -/
theorem State.OnProgram.stop {s : State} (h : s.OnProgram) {k : Stop}
    (hstop : step s = stopOutcome k) :
    s.cur.pc.toNat + 4 < 2 ^ 32 ∧
      ∃ w i, fetchWord s = .ok w ∧ decodeWord w = .ok i ∧ exec i s = stopOutcome k := by
  have hne : s.cur.pc ≠ s.platform.endAddr := by
    intro hend
    rw [step_of_halted ((s.halted_iff s.cur).2 (.inl hend))] at hstop
    cases k <;> cases hstop
  obtain ⟨hroom, hfetch, i, hdec⟩ := h.fetches hne
  refine ⟨by omega, _, i, hfetch, hdec, ?_⟩
  rw [← threadStep_of_decodeWord hfetch hdec]
  exact threadStep_of_step_stop hstop

/-- Settles O43: a run stays on its program, and of the stops of an instruction there
(`stopsOfAStore`) only the store that is not admitted is left. -/
theorem programIsNeverRefused : Obligations.ProgramIsNeverRefused := by
  refine fun s hs => ⟨fun t => hs.of_step, fun f hf => ?_, fun r hr => ?_⟩
  · obtain ⟨hroom, w, i, hfetch, hdec, hexec⟩ := hs.stop (k := .faulted f) hf
    obtain ⟨hfaults, -⟩ := stopsOfAStore i s
    rcases (hfaults f).1 hexec with ⟨htop, -⟩ | ⟨-, hadm, rfl⟩
    · omega
    · exact ⟨w, i, hfetch, hdec, rfl, (Platform.admits_four_eq_false ..).2 hadm⟩
  · obtain ⟨-, _, i, -, -, hexec⟩ := hs.stop (k := .refused r) hr
    exact exec_ne_refused i s r hexec

/-! ### A straight line of words (R59, R77) -/

/-- The instruction is one that the thread at the turn has before it: a word from its `pc` up to
`END` decodes to it. -/
def State.hasAhead (s : State) (i : Instr) : Prop :=
  ∃ p : Addr, s.cur.pc.toNat ≤ p.toNat ∧ p.toNat < s.platform.endAddr.toNat ∧ p.toNat % 4 = 0 ∧
    decodeWord (Memory.readWord s.mem p) = .ok i

/-- After a store the thread has nothing ahead that it had not before. -/
theorem hasAhead_of_stored {s : State} {i j : Instr} (hs : s.OnProgram)
    (hstep : step s = .next (stored i s)) (hpc : s.cur.pc.toNat + 4 < 2 ^ 32)
    (h : (stored i s).hasAhead j) : s.hasAhead j := by
  obtain ⟨p, hlo, hhi, hp, hdec⟩ := h
  obtain ⟨-, hthreads⟩ := hs
  obtain ⟨-, -, hprog⟩ := hthreads s.cur (List.mem_cons_self ..)
  rw [stored_cur, Thread.complete_pc] at hlo
  have hlo : s.cur.pc.toNat ≤ p.toNat := by bv_omega
  obtain ⟨-, htext, -⟩ := hprog p hlo hhi hp
  rw [readWord_step_of_inText hstep hp htext] at hdec
  exact ⟨p, hlo, hhi, hp, hdec⟩

/-- A machine of one thread before `END`, all of whose stores ahead are admitted, does the first of
them. -/
theorem State.OnProgram.step_stored {s : State} (hs : s.OnProgram) (halone : s.others = [])
    (hmark : s.cur.mark = none) (hne : s.cur.pc ≠ s.platform.endAddr)
    (hadm : ∀ i, s.hasAhead i → s.platform.admits (instrAddress i s.cur).toNat 4 .write = true) :
    ∃ i, s.hasAhead i ∧ step s = .next (stored i s) := by
  obtain ⟨hroom, hfetch, i, hdec⟩ := hs.fetches hne
  obtain ⟨hpc, -⟩ := fetchWord_eq_ok hfetch
  have hi : s.hasAhead i := ⟨s.cur.pc, le_rfl, by omega, hpc, hdec⟩
  refine ⟨i, hi, ?_⟩
  rw [step_alone halone hmark hne, threadStep_of_decodeWord hfetch hdec]
  exact exec_eq_next (by omega) ((Platform.admits_four ..).1 (hadm i hi))

/-- The straight line of `n` words, by induction on `n`: each step does one store and leaves a
straight line of one word less. -/
theorem run_straightLine {n : Nat} {s : State} (halone : s.others = []) (hmark : s.cur.mark = none)
    (hs : s.OnProgram) (hlen : s.cur.pc.toNat + 4 * n = s.platform.endAddr.toNat)
    (hadm : ∀ i, s.hasAhead i → s.platform.admits (instrAddress i s.cur).toNat 4 .write = true) :
    ∃ t, Host.Core.run core n s = .next t ∧ t.goodEnd = true ∧
      t.cur = { s.cur with pc := s.platform.endAddr } ∧
      t.stores.length = s.stores.length + n ∧
      ∀ a, (∀ i, s.hasAhead i →
          a < (instrAddress i s.cur).toNat ∨ (instrAddress i s.cur).toNat + 4 ≤ a) →
        Memory.read t.mem a = Memory.read s.mem a := by
  induction n generalizing s with
  | zero =>
    have hend : s.cur.pc = s.platform.endAddr := BitVec.eq_of_toNat_eq hlen
    refine ⟨s, rfl, ?_, by rw [← hend], rfl, fun a _ => rfl⟩
    simp [State.goodEnd, State.threads, State.finished, halone, hmark, hend]
  | succ n ih =>
    have hne : s.cur.pc ≠ s.platform.endAddr := fun e => by rw [e] at hlen; omega
    obtain ⟨i, hi, hstep⟩ := hs.step_stored halone hmark hne hadm
    have hahead {j : Instr} : (stored i s).hasAhead j → s.hasAhead j :=
      hasAhead_of_stored hs hstep (by omega)
    have hlen' : (stored i s).cur.pc.toNat + 4 * n = (stored i s).platform.endAddr.toNat := by
      rw [stored_cur, Thread.complete_pc, stored_platform]
      bv_omega
    obtain ⟨t, hrun, hgood, hcur, hstores, hread⟩ := ih (s := stored i s) halone hmark
      (hs.of_step hstep) hlen' fun j hj => hadm j (hahead hj)
    refine ⟨t, (run_succ core n hstep).trans hrun, hgood, hcur, ?_, fun a ha => ?_⟩
    · rw [hstores, stored_stores, List.length_cons]
      omega
    · rw [hread a fun j hj => ha j (hahead hj), read_stored_other i s (ha i hi)]

/-- Settles O44: the words ahead are those from `pc` up to `END`. -/
theorem straightLineRunComesToAGoodEnd : Obligations.StraightLineRunComesToAGoodEnd := by
  intro s n halone hmark hs hlen hadm
  obtain ⟨t, hrun, hgood, hcur, hstores, hread⟩ := run_straightLine halone hmark hs hlen
    fun i ⟨p, hlo, hhi, hp, hdec⟩ => hadm p i hlo hhi hp hdec
  exact ⟨t, hrun, hgood, hcur, hstores, fun a ha =>
    hread a fun i ⟨p, hlo, hhi, hp, hdec⟩ => ha p i hlo hhi hp hdec⟩

end Sys2Proof.Machine
end

section
/-! PROOF. The statement of the family other: the five words of `95_test_vectors.md` section 2.1. -/

namespace Sys2Proof

/-- A vector that lists an encoding's bytes decodes to its instruction, and nothing is left. -/
theorem decode_of_encodeBytes_eq {bs : List Byte} {i : Instr} (hwf : i.WellFormed)
    (h : encodeBytes i = bs) : decode bs = .ok (i, []) := by
  rw [← h, ← List.append_nil (encodeBytes i)]
  exact decodeOfEncodeIsTheInstruction i [] hwf

/-- Settles O3: each vector lists the bytes of its instruction's encoding, so O1 decodes it. -/
theorem sampleWordsDecode : Obligations.SampleWordsDecode :=
  ⟨decode_of_encodeBytes_eq (by decide : (0 : VrName).toNat < 32) rfl,
    decode_of_encodeBytes_eq (by decide : (1 : VrName).toNat < 32) rfl,
    decode_of_encodeBytes_eq (by decide : (31 : VrName).toNat < 32) rfl,
    decode_of_encodeBytes_eq trivial rfl, decode_of_encodeBytes_eq trivial rfl⟩

end Sys2Proof
end
